-- ==== Sys2Proof/Word.lean ====
section
/-! DEFINITION. The two word types of the block: 64-bit values and 8-bit code positions. -/

namespace Sys2Proof

/-- A signed 64-bit value in two's complement: every operand-stack value, data-memory cell, PC value and
call-stack entry (00_scope.md R1, R6). `BitVec.toInt` is the int64 it stands for. -/
abbrev Word := BitVec 64

/-- One position of the code buffer and one byte of the output port (00_scope.md R3). -/
abbrev Byte := BitVec 8

end Sys2Proof
end

