-- ==== Sys2Proof/Syntax.lean ====
section
/-! DEFINITION. The instructions: one constructor per row of the opcode table. -/

namespace Sys2Proof

/-- The 27 opcodes of 30_encoding.md R45 and the no-op. Operands are implicit (R47); a digit's immediate is its own
byte (R46), so each digit is an instruction of its own, as in the table. -/
inductive Instr where
  /-- `0` -/
  | push0
  /-- `1` -/
  | push1
  /-- `2` -/
  | push2
  /-- `3` -/
  | push3
  /-- `4` -/
  | push4
  /-- `5` -/
  | push5
  /-- `6` -/
  | push6
  /-- `7` -/
  | push7
  /-- `8` -/
  | push8
  /-- `9` -/
  | push9
  /-- `+` -/
  | add
  /-- `-` -/
  | sub
  /-- `*` -/
  | mul
  /-- `/` -/
  | div
  /-- `:` -/
  | cmp
  /-- `d` -/
  | drop
  /-- `^` -/
  | pick
  /-- `v` -/
  | roll
  /-- `<` -/
  | peek
  /-- `>` -/
  | poke
  /-- `g` -/
  | goto
  /-- `?` -/
  | brz
  /-- `c` -/
  | call
  /-- `$` -/
  | ret
  /-- `!` -/
  | exit
  /-- `p` -/
  | print
  /-- `P` -/
  | putc
  /-- Any other byte (R48), kept so that no bit of the code is lost (log 8). -/
  | nop (b : Byte)
  deriving DecidableEq, Repr

end Sys2Proof
end

