-- ==== Sys2Proof/WellFormed.lean ====
section
/-! DEFINITION. Which terms of Instr stand for an instruction: a no-op's byte is none of the 27 opcode bytes. -/

namespace Sys2Proof

/-- The 27 assigned bytes of 30_encoding.md R45, in its order. -/
def opcodeBytes : List Byte :=
  [0x30, 0x31, 0x32, 0x33, 0x34, 0x35, 0x36, 0x37, 0x38, 0x39] ++
  [0x2B, 0x2D, 0x2A, 0x2F, 0x3A] ++
  [0x64, 0x5E, 0x76] ++
  [0x3C, 0x3E] ++
  [0x67, 0x3F, 0x63, 0x24, 0x21] ++
  [0x70, 0x50]

/-- Well-formedness: `nop b` is an instruction only for a byte that is no opcode (30_encoding.md R48). -/
def Instr.wf : Instr → Bool
  | .push0 | .push1 | .push2 | .push3 | .push4 | .push5 | .push6 | .push7 | .push8 | .push9 => true
  | .add | .sub | .mul | .div | .cmp => true
  | .drop | .pick | .roll => true
  | .peek | .poke => true
  | .goto | .brz | .call | .ret | .exit => true
  | .print | .putc => true
  | .nop b => !opcodeBytes.contains b

end Sys2Proof
end

