-- ==== Sys2Proof/Decode.lean ====
section
/-! DEFINITION. The decoder (total on every byte string) and the encoder, both from the opcode map of
30_encoding.md R45. -/

namespace Sys2Proof

/-- The rows of 30_encoding.md R45: byte and instruction. Each row compares all 8 bits. -/
def opcodeRows : List (Byte × Instr) :=
  [(0x30, .push0), (0x31, .push1), (0x32, .push2), (0x33, .push3), (0x34, .push4),
   (0x35, .push5), (0x36, .push6), (0x37, .push7), (0x38, .push8), (0x39, .push9)] ++
  [(0x2B, .add), (0x2D, .sub), (0x2A, .mul), (0x2F, .div), (0x3A, .cmp)] ++
  [(0x64, .drop), (0x5E, .pick), (0x76, .roll)] ++
  [(0x3C, .peek), (0x3E, .poke)] ++
  [(0x67, .goto), (0x3F, .brz), (0x63, .call), (0x24, .ret), (0x21, .exit)] ++
  [(0x70, .print), (0x50, .putc)]

/-- The instruction a byte stands for: its row, or the no-op (30_encoding.md R48, R49). It depends on no state (R50). -/
def decodeByte (b : Byte) : Instr :=
  match opcodeRows.lookup b with
  | some i => i
  | none => .nop b

/-- Why a byte string starts with no instruction. The only reason is that it is empty: no byte is illegal
(30_encoding.md R48). -/
inductive DecodeError where
  | noByte
  deriving DecidableEq, Repr

/-- Decode the instruction at the head of a byte string and give the bytes after it. An instruction is always one
byte (30_encoding.md R44). -/
def decode : List Byte → Except DecodeError (Instr × List Byte)
  | [] => .error .noByte
  | b :: rest => .ok (decodeByte b, rest)

/-- A whole code buffer, read position by position: every byte is an instruction (30_encoding.md R44, R51). -/
def decodeAll : List Byte → List Instr
  | [] => []
  | b :: rest => decodeByte b :: decodeAll rest

/-- The byte of each instruction (30_encoding.md R45). -/
def encodeByte : Instr → Byte
  | .push0 => 0x30
  | .push1 => 0x31
  | .push2 => 0x32
  | .push3 => 0x33
  | .push4 => 0x34
  | .push5 => 0x35
  | .push6 => 0x36
  | .push7 => 0x37
  | .push8 => 0x38
  | .push9 => 0x39
  | .add => 0x2B
  | .sub => 0x2D
  | .mul => 0x2A
  | .div => 0x2F
  | .cmp => 0x3A
  | .drop => 0x64
  | .pick => 0x5E
  | .roll => 0x76
  | .peek => 0x3C
  | .poke => 0x3E
  | .goto => 0x67
  | .brz => 0x3F
  | .call => 0x63
  | .ret => 0x24
  | .exit => 0x21
  | .print => 0x70
  | .putc => 0x50
  | .nop b => b

/-- The code of one instruction: one byte (30_encoding.md R44). -/
def encode (i : Instr) : List Byte := [encodeByte i]

/-- The code of a program: the bytes of its instructions in order (30_encoding.md R51). -/
def encodeAll : List Instr → List Byte
  | [] => []
  | i :: rest => encode i ++ encodeAll rest

/-- What the decoder reads from the opcode table's word `w` of `nbits` bits, bit 0 the least significant bit of the
byte (the host's question). -/
def decodeTableWord (nbits w : Nat) : Option Instr :=
  match decode [BitVec.ofNat 8 (w % 2 ^ nbits)] with
  | .ok (i, _) => some i
  | .error _ => none

end Sys2Proof
end

