-- ==== Sys2Proof/Config.lean ====
section
/-! DEFINITION. What an implementation fixes: the memory size, the three capacities, and the one free value. -/

namespace Sys2Proof

/-- `MEM_CELLS`: the number of data-memory cells (00_scope.md R2). -/
def memCells : Nat := 16384

/-- A capacity parameter: a number of elements, or `unbounded` (00_scope.md R4, R5). -/
inductive Capacity where
  | unbounded
  | finite (n : Nat)
  deriving DecidableEq, Repr

/-- The parameters of one block, fixed for its life: `OS_DEPTH`, `CS_DEPTH` (00_scope.md R4) and `CODE_CAP`
(R5). The spec leaves their values open; State carries them and no step writes them (log 2). -/
structure Config where
  osDepth : Capacity
  csDepth : Capacity
  codeCap : Capacity
  deriving DecidableEq, Repr

/-- The parameters that match the reference software (00_scope.md R4, R5). -/
def Config.reference : Config :=
  { osDepth := .unbounded, csDepth := .unbounded, codeCap := .unbounded }

/-- What 00_scope.md R4 and R5 say of the parameters: a finite depth is positive, a finite code capacity is
positive and below 2^63. The machine itself runs with any capacities (log 11). -/
def Config.legal (c : Config) : Bool :=
  (match c.osDepth with | .unbounded => true | .finite n => decide (0 < n)) &&
  (match c.csDepth with | .unbounded => true | .finite n => decide (0 < n)) &&
  (match c.codeCap with | .unbounded => true | .finite n => decide (0 < n ∧ n < 2 ^ 63))

/-- FREE VALUE (DESIGN CHOICE, log 1): the PC after an advance from 2^63 - 1, which leaves int64. 40_dispatch.md
R56 says the advance cannot overflow, which holds only while `CODE` is shorter than 2^63 bytes. -/
opaque Config.freeAdvance : Nat → Word

end Sys2Proof
end

