-- ==== Sys2Proof/Machine/State.lean ====
section
/-! DEFINITION. The state of the block as plain data (10_state.md section 1), its reset value, and the reasons the
model can stop. -/

namespace Sys2Proof.Machine

/-- The run status (10_state.md R19). -/
inductive Status where
  | running
  | haltedEndOfCode
  | haltedByExit
  | faultedFatal
  deriving DecidableEq, Repr

/-- The fault kinds (60_exceptions.md R88). -/
inductive FaultKind where
  | negativePC
  | addressOutOfRange
  | stackIndexOutOfRange
  | stackUnderflow
  | returnWithoutCall
  | divisionByZero
  | operandStackOverflow
  | callStackOverflow
  | codeBufferOverflow
  deriving DecidableEq, Repr

/-- `FAULT`, the record of the fatal fault (10_state.md R21). `kind` is `none` for code 0 and `opcode` is `none` for
`has_opcode = 0`; the bit fields are the port views of Machine/Ports.lean (log 10). -/
structure FaultRecord where
  valid : Bool
  kind : Option FaultKind
  opcode : Option Byte
  pc : Word
  deriving DecidableEq, Repr

/-- `FAULT` at reset: valid = 0 and all other fields 0 (10_state.md R21). -/
def FaultRecord.clear : FaultRecord := { valid := false, kind := none, opcode := none, pc := 0 }

/-- What the host sends on the block's input ports (10_state.md R25). -/
inductive HostAction where
  | append (bytes : List Byte)
  | run
  deriving DecidableEq, Repr

/-- `M`, the data memory (10_state.md R18): the cells that are not 0, by index. A cell not listed reads as 0, its
reset value (20_memory.md R33). A cell is a whole 64-bit word: no byte order exists (R35; log 7). -/
abbrev Memory := List (Nat × Word)

/-- The canonical form of a memory: indices strictly rising, every index a cell, no cell listed that is 0. -/
abbrev Memory.wf (m : Memory) : Prop :=
  m.Pairwise (fun c d => c.1 < d.1) ∧ ∀ c ∈ m, c.1 < memCells ∧ c.2 ≠ 0

/-- The state of the block: the session state of 10_state.md R8, the parameters of the block (log 2), the bytes it
has sent on `OUT` (log 6), the host's pending actions (log 5) and the counter of free values (log 1). -/
structure State where
  /-- `CODE`, oldest byte first (R10). -/
  code : List Byte
  /-- `PC` (R11). -/
  pc : Word
  /-- `OS`, top first (R12). -/
  os : List Word
  /-- `CS`, top first (R15). -/
  cs : List Word
  /-- `M` (R18). -/
  mem : Memory
  /-- `STATUS` (R19). -/
  status : Status
  /-- `FAULT` (R21). -/
  fault : FaultRecord
  /-- The bytes emitted on `OUT`, oldest first (R28). -/
  out : List Byte
  /-- The host's actions not yet taken, oldest first (R25; the model's own field). -/
  host : List HostAction
  /-- The parameters of the block (00_scope.md R4, R5). -/
  cfg : Config
  /-- How many free values have been used (the model's own field). -/
  freeIndex : Nat
  deriving DecidableEq, Repr

/-- The state right after reset of a block with the given parameters (70_reset_and_hazards.md R99). -/
def State.resetWith (cfg : Config) : State :=
  { code := []
    pc := 0
    os := []
    cs := []
    mem := []
    status := .haltedEndOfCode
    fault := .clear
    out := []
    host := []
    cfg := cfg
    freeIndex := 0 }

/-- The state right after reset, with the parameters that match the reference software (log 2). -/
def State.reset : State := State.resetWith Config.reference

/-- The faults that stop the model. There are none: every fault of the spec (60_exceptions.md R88) is fatal but has
an entry the spec describes (R89), so it is a next state with `STATUS = FaultedFatal` (log 3). -/
inductive Fault where
  deriving DecidableEq, Repr

/-- The refusals of the model. -/
inductive Refusal where
  /-- Raised by `exec` only, for an instruction that has no meaning yet (safe). No arm of it is left. -/
  | notModelled (mnemonic : String)
  deriving DecidableEq, Repr

end Sys2Proof.Machine
end

