-- ==== Sys2Proof/Machine/Ops.lean ====
section
/-! DEFINITION. The named operations over the state: raising a fault, the two stacks, data memory, the output port and
the PC. An operation that can fault takes the step's current opcode `o` (40_dispatch.md R52), which the fault record
keeps, and the rest of the instruction as a continuation, which a fault discards (R59). -/

namespace Sys2Proof

/-- A sequence of `n` elements fills the capacity exactly (10_state.md R14, R16). -/
def Capacity.isFull (c : Capacity) (n : Nat) : Bool :=
  match c with
  | .unbounded => false
  | .finite d => n == d

/-- A sequence of `n` elements is within the capacity (10_state.md R26 for `CODE`). -/
def Capacity.admits (c : Capacity) (n : Nat) : Bool :=
  match c with
  | .unbounded => true
  | .finite d => decide (n ≤ d)

end Sys2Proof

namespace Sys2Proof.Machine

/-- Taking a fault (60_exceptions.md R89): `FAULT` holds the kind, the opcode (none outside the execute phase) and the
PC at the raise, and `STATUS` becomes `FaultedFatal`. Nothing else changes: there is no handler, and nothing is rolled
back (R91). There is no return from it (R92). -/
def State.raise (s : State) (kind : FaultKind) (o : Option Byte) : State :=
  { s with
    fault := { valid := true, kind := some kind, opcode := o, pc := s.pc }
    status := .faultedFatal }

/-- `Pop()` (10_state.md R13), with the rest of the instruction. -/
def State.pop (s : State) (o : Byte) (rest : Word → State → State) : State :=
  match s.os with
  | [] => s.raise .stackUnderflow (some o)
  | v :: below => rest v { s with os := below }

/-- `Push(v)` (10_state.md R14), always the last statement of an instruction. -/
def State.push (s : State) (o : Byte) (v : Word) : State :=
  if s.cfg.osDepth.isFull s.os.length then s.raise .operandStackOverflow (some o)
  else { s with os := v :: s.os }

/-- `CPush(v)` (10_state.md R16), with the rest of the instruction. -/
def State.cpush (s : State) (o : Byte) (v : Word) (rest : State → State) : State :=
  if s.cfg.csDepth.isFull s.cs.length then s.raise .callStackOverflow (some o)
  else rest { s with cs := v :: s.cs }

/-- `CPop()` (10_state.md R17), with the rest of the instruction. -/
def State.cpop (s : State) (o : Byte) (rest : Word → State → State) : State :=
  match s.cs with
  | [] => s.raise .returnWithoutCall (some o)
  | v :: below => rest v { s with cs := below }

/-- The word in cell `a`: the listed one, or 0 (20_memory.md R33). -/
def Memory.read : Memory → Nat → Word
  | [], _ => 0
  | (k, w) :: rest, a => if k = a then w else Memory.read rest a

/-- The memory without an entry for cell `a`. -/
def Memory.erase (m : Memory) (a : Nat) : Memory := m.filter (fun c => c.1 != a)

/-- The memory with an entry for cell `a`, placed by index. -/
def Memory.insert : Memory → Nat → Word → Memory
  | [], a, v => [(a, v)]
  | (k, w) :: rest, a, v => if a < k then (a, v) :: (k, w) :: rest else (k, w) :: Memory.insert rest a v

/-- `M[a] <- v` (20_memory.md R34), kept in canonical form: a cell set to 0 is not listed. -/
def Memory.write (m : Memory) (a : Nat) (v : Word) : Memory :=
  if v = 0 then m.erase a else (m.erase a).insert a v

/-- `MemRead(a, 1)` (20_memory.md R33): one whole cell, no side effect. -/
def State.memRead (s : State) (a : Nat) : Word := s.mem.read a

/-- `MemWrite(a, 1, v)` (20_memory.md R34): one whole cell. -/
def State.memWrite (s : State) (a : Nat) (v : Word) : State := { s with mem := s.mem.write a v }

/-- `Emit(b)` (10_state.md R28): the byte follows those already delivered. -/
def State.emit (s : State) (b : Byte) : State := { s with out := s.out ++ [b] }

/-- `PC <- target`, not checked when it is written (43_control.md R77). -/
def State.setPc (s : State) (target : Word) : State := { s with pc := target }

/-- `STATUS <- HaltedByExit` (43_control.md R83). -/
def State.exitSession (s : State) : State := { s with status := .haltedByExit }

end Sys2Proof.Machine
end

