-- ==== Sys2Proof/Machine/Operands.lean ====
section
/-! DEFINITION. The operand forms: the digit immediate, one and two popped operands, the data address and the stack
depth. -/

namespace Sys2Proof.Machine

/-- The immediate of a digit opcode: `zext_64(o - 0x30)` (30_encoding.md R46). -/
def digitImmediate (o : Byte) : Word := (o - 0x30).setWidth 64

/-- Two operands from the operand stack, the first popped first (30_encoding.md R47). -/
def State.popTwo (s : State) (o : Byte) (rest : Word → Word → State → State) : State :=
  s.pop o fun first s => s.pop o fun second s => rest first second s

/-- `Translate(a)` (20_memory.md R32): the identity on the 16384 cells, a fault on every other address, with the rest
of the instruction. -/
def State.translate (s : State) (o : Byte) (a : Word) (rest : Nat → State) : State :=
  if 0 ≤ a.toInt ∧ a.toInt < memCells then rest a.toNat
  else s.raise .addressOutOfRange (some o)

/-- `Resolve(i)` (41_stack_alu.md R72) against the operand stack as it stands: `i` is accepted exactly when
`0 ≤ i < |OS|`, and the rest of the instruction is given the depth and the element `OS[i]` it names. -/
def State.resolve (s : State) (o : Byte) (i : Word) (rest : Nat → Word → State) : State :=
  if i.toInt < 0 then s.raise .stackIndexOutOfRange (some o)
  else
    match s.os[i.toNat]? with
    | some v => rest i.toNat v
    | none => s.raise .stackIndexOutOfRange (some o)

end Sys2Proof.Machine
end

