-- ==== Sys2Proof/Machine/Flags.lean ====
section
/-! DEFINITION. The block has no flags (10_state.md R22): a comparison delivers a value, and a branch tests a popped
value. Both computations stand here. -/

namespace Sys2Proof.Machine

/-- The three-way signed comparison of `b` with `a` (41_stack_alu.md R64, R70). -/
def compareSigned (b a : Word) : Word :=
  if b.toInt < a.toInt then -1
  else if b.toInt = a.toInt then 0
  else 1

/-- The test of `BRZ` (43_control.md R80): the condition value is 0. -/
def branchTaken (cond : Word) : Bool := cond.toInt == 0

end Sys2Proof.Machine
end

