-- ==== Sys2Proof/Machine/Alu.lean ====
section
/-! DEFINITION. The integer arithmetic laws of 41_stack_alu.md section 1: exact results over the integers, narrowed by
`wrap64`. -/

namespace Sys2Proof.Machine

/-- `wrap64(x)`: the int64 congruent to `x` modulo 2^64 (00_scope.md section 5). -/
def wrap64 (x : Int) : Word := BitVec.ofInt 64 x

/-- `trunc_div(b, a)`: the quotient rounded toward zero, as 00_scope.md section 5 writes it. -/
def truncDiv (b a : Int) : Int := b.sign * a.sign * ((b.natAbs / a.natAbs : Nat) : Int)

/-- The sum of R62 and R66 (log 12). -/
def aluAdd (b a : Word) : Word := wrap64 (b.toInt + a.toInt)

/-- The difference of R62 and R67. -/
def aluSub (b a : Word) : Word := wrap64 (b.toInt - a.toInt)

/-- The product of R62 and R68. -/
def aluMul (b a : Word) : Word := wrap64 (b.toInt * a.toInt)

/-- The quotient of R63 and R69, for a divisor that is not 0. -/
def aluDiv (b a : Word) : Word := wrap64 (truncDiv b.toInt a.toInt)

end Sys2Proof.Machine
end

