-- ==== Sys2Proof/Machine/Control.lean ====
section
/-! DEFINITION. The meanings of 43_control.md, and of NOP (40_dispatch.md R58). They run with the PC already advanced
(40_dispatch.md R56). -/

namespace Sys2Proof.Machine

/-- A relative transfer: `PC <- wrap64(PC + offset)`, `PC` post-advance (43_control.md R77, R78). -/
def State.jumpRelative (s : State) (offset : Word) : State := s.setPc (wrap64 (s.pc.toInt + offset.toInt))

/-- `GOTO` (R79). -/
def execGoto (s : State) : Host.Outcome State Fault Refusal :=
  .next (s.pop (encodeByte .goto) fun offset s => s.jumpRelative offset)

/-- `BRZ` (R80): both operands are consumed whether or not the branch is taken. -/
def execBrz (s : State) : Host.Outcome State Fault Refusal :=
  .next (s.popTwo (encodeByte .brz) fun offset cond s =>
    if branchTaken cond then s.jumpRelative offset else s)

/-- `CALL` (R81): the return address is saved before the target is popped. -/
def execCall (s : State) : Host.Outcome State Fault Refusal :=
  .next (s.cpush (encodeByte .call) s.pc fun s => s.pop (encodeByte .call) fun target s => s.setPc target)

/-- `RET` (R82). -/
def execRet (s : State) : Host.Outcome State Fault Refusal :=
  .next (s.cpop (encodeByte .ret) fun r s => s.setPc r)

/-- `EXIT` (R83). -/
def execExit (s : State) : Host.Outcome State Fault Refusal := .next s.exitSession

/-- `NOP` (40_dispatch.md R58): nothing; the PC was already advanced past it. -/
def execNop (_b : Byte) (s : State) : Host.Outcome State Fault Refusal := .next s

end Sys2Proof.Machine
end

