-- ==== Sys2Proof/Machine/MemoryOps.lean ====
section
/-! DEFINITION. The meanings of 42_memory_ops.md: peek and poke. -/

namespace Sys2Proof.Machine

/-- `PEEK` (R75). -/
def execPeek (s : State) : Host.Outcome State Fault Refusal :=
  .next (s.pop (encodeByte .peek) fun addr s =>
    s.translate (encodeByte .peek) addr fun k => s.push (encodeByte .peek) (s.memRead k))

/-- `POKE` (R76): the address is checked after both pops. -/
def execPoke (s : State) : Host.Outcome State Fault Refusal :=
  .next (s.popTwo (encodeByte .poke) fun addr value s =>
    s.translate (encodeByte .poke) addr fun k => s.memWrite k value)

end Sys2Proof.Machine
end

