-- ==== Sys2Proof/Machine/Output.lean ====
section
/-! DEFINITION. The meanings of 44_io.md: the decimal text of an int64, print and putc. -/

namespace Sys2Proof.Machine

/-- The ASCII byte of a decimal digit (44_io.md R85). -/
def digitByte (d : Nat) : Byte := 0x30 + BitVec.ofNat 8 d

/-- The decimal digits of `n`, most significant first, with no leading zeros, in at most `fuel` digits. -/
def decDigits : Nat → Nat → List Byte
  | 0, _ => []
  | fuel + 1, n => if n < 10 then [digitByte n] else decDigits fuel (n / 10) ++ [digitByte (n % 10)]

/-- `Dec(v)` (44_io.md R85): a minus sign if `v` is negative, then the digits of its magnitude, which is at most 2^63
and so has at most 19 digits. -/
def dec (v : Word) : List Byte :=
  if v.toInt < 0 then 0x2D :: decDigits 20 v.toInt.natAbs else decDigits 20 v.toInt.natAbs

/-- `PRINT` (R86): the bytes are emitted first to last. -/
def execPrint (s : State) : Host.Outcome State Fault Refusal :=
  .next (s.pop (encodeByte .print) fun x s => (dec x).foldl State.emit s)

/-- `PUTC` (R87): the low 8 bits. -/
def execPutc (s : State) : Host.Outcome State Fault Refusal :=
  .next (s.pop (encodeByte .putc) fun x s => s.emit (x.setWidth 8))

end Sys2Proof.Machine
end

