-- ==== Sys2Proof/Machine/StackAlu.lean ====
section
/-! DEFINITION. The meanings of 41_stack_alu.md: digit pushes, arithmetic, comparison, drop, pick and roll. -/

namespace Sys2Proof.Machine

/-- `PUSHn` (R65): push the immediate of the digit byte `o`. -/
def State.pushDigit (s : State) (o : Byte) : State := s.push o (digitImmediate o)

/-- The shape of the five binary opcodes (R64, operand order): `a` is popped first, `b` second, and `b OP a` is
pushed. -/
def State.binary (s : State) (o : Byte) (op : Word → Word → Word) : State :=
  s.popTwo o fun a b s => s.push o (op b a)

/-- `PUSH0` (R65). -/
def execPush0 (s : State) : Host.Outcome State Fault Refusal := .next (s.pushDigit (encodeByte .push0))
/-- `PUSH1` (R65). -/
def execPush1 (s : State) : Host.Outcome State Fault Refusal := .next (s.pushDigit (encodeByte .push1))
/-- `PUSH2` (R65). -/
def execPush2 (s : State) : Host.Outcome State Fault Refusal := .next (s.pushDigit (encodeByte .push2))
/-- `PUSH3` (R65). -/
def execPush3 (s : State) : Host.Outcome State Fault Refusal := .next (s.pushDigit (encodeByte .push3))
/-- `PUSH4` (R65). -/
def execPush4 (s : State) : Host.Outcome State Fault Refusal := .next (s.pushDigit (encodeByte .push4))
/-- `PUSH5` (R65). -/
def execPush5 (s : State) : Host.Outcome State Fault Refusal := .next (s.pushDigit (encodeByte .push5))
/-- `PUSH6` (R65). -/
def execPush6 (s : State) : Host.Outcome State Fault Refusal := .next (s.pushDigit (encodeByte .push6))
/-- `PUSH7` (R65). -/
def execPush7 (s : State) : Host.Outcome State Fault Refusal := .next (s.pushDigit (encodeByte .push7))
/-- `PUSH8` (R65). -/
def execPush8 (s : State) : Host.Outcome State Fault Refusal := .next (s.pushDigit (encodeByte .push8))
/-- `PUSH9` (R65). -/
def execPush9 (s : State) : Host.Outcome State Fault Refusal := .next (s.pushDigit (encodeByte .push9))

/-- `ADD` (R66). -/
def execAdd (s : State) : Host.Outcome State Fault Refusal := .next (s.binary (encodeByte .add) aluAdd)

/-- `SUB` (R67). -/
def execSub (s : State) : Host.Outcome State Fault Refusal := .next (s.binary (encodeByte .sub) aluSub)

/-- `MUL` (R68). -/
def execMul (s : State) : Host.Outcome State Fault Refusal := .next (s.binary (encodeByte .mul) aluMul)

/-- `DIV` (R69): the divisor is checked after both pops. -/
def execDiv (s : State) : Host.Outcome State Fault Refusal :=
  .next (s.popTwo (encodeByte .div) fun a b s =>
    if a.toInt = 0 then s.raise .divisionByZero (some (encodeByte .div))
    else s.push (encodeByte .div) (aluDiv b a))

/-- `CMP` (R70). -/
def execCmp (s : State) : Host.Outcome State Fault Refusal := .next (s.binary (encodeByte .cmp) compareSigned)

/-- `DROP` (R71). -/
def execDrop (s : State) : Host.Outcome State Fault Refusal := .next (s.pop (encodeByte .drop) fun _ s => s)

/-- `PICK` (R73). -/
def execPick (s : State) : Host.Outcome State Fault Refusal :=
  .next (s.pop (encodeByte .pick) fun i s =>
    s.resolve (encodeByte .pick) i fun _ v => s.push (encodeByte .pick) v)

/-- `ROLL` (R74): the element is removed before it is pushed. -/
def execRoll (s : State) : Host.Outcome State Fault Refusal :=
  .next (s.pop (encodeByte .roll) fun i s =>
    s.resolve (encodeByte .roll) i fun d v =>
      State.push { s with os := s.os.eraseIdx d } (encodeByte .roll) v)

end Sys2Proof.Machine
end

