-- ==== Sys2Proof/Machine/Dispatch.lean ====
section
/-! DEFINITION. `Execute(o)` (40_dispatch.md R57): one arm per instruction. -/

namespace Sys2Proof.Machine

/-- The meaning of an instruction, on the state whose PC is already advanced past it (40_dispatch.md R56, R57). -/
def exec (i : Instr) (s : State) : Host.Outcome State Fault Refusal :=
  match i with
  | .push0 => Sys2Proof.Machine.execPush0 s
  | .push1 => Sys2Proof.Machine.execPush1 s
  | .push2 => Sys2Proof.Machine.execPush2 s
  | .push3 => Sys2Proof.Machine.execPush3 s
  | .push4 => Sys2Proof.Machine.execPush4 s
  | .push5 => Sys2Proof.Machine.execPush5 s
  | .push6 => Sys2Proof.Machine.execPush6 s
  | .push7 => Sys2Proof.Machine.execPush7 s
  | .push8 => Sys2Proof.Machine.execPush8 s
  | .push9 => Sys2Proof.Machine.execPush9 s
  | .add => Sys2Proof.Machine.execAdd s
  | .sub => Sys2Proof.Machine.execSub s
  | .mul => Sys2Proof.Machine.execMul s
  | .div => Sys2Proof.Machine.execDiv s
  | .cmp => Sys2Proof.Machine.execCmp s
  | .drop => Sys2Proof.Machine.execDrop s
  | .pick => Sys2Proof.Machine.execPick s
  | .roll => Sys2Proof.Machine.execRoll s
  | .peek => Sys2Proof.Machine.execPeek s
  | .poke => Sys2Proof.Machine.execPoke s
  | .goto => Sys2Proof.Machine.execGoto s
  | .brz => Sys2Proof.Machine.execBrz s
  | .call => Sys2Proof.Machine.execCall s
  | .ret => Sys2Proof.Machine.execRet s
  | .exit => Sys2Proof.Machine.execExit s
  | .print => Sys2Proof.Machine.execPrint s
  | .putc => Sys2Proof.Machine.execPutc s
  | .nop b => Sys2Proof.Machine.execNop b s

end Sys2Proof.Machine
end

