-- ==== Sys2Proof/Machine/Fetch.lean ====
section
/-! DEFINITION. The fetch and the advance of the run cycle (40_dispatch.md section 1), and where the host's question
places a byte. -/

namespace Sys2Proof.Machine

/-- What the fetch finds (40_dispatch.md R53, R54, R55). -/
inductive Fetched where
  | negativePC
  | endOfCode
  | opcode (o : Byte)
  deriving DecidableEq, Repr

/-- The fetch: the negative-PC check comes before the end-of-code check (40_dispatch.md R53). -/
def State.fetch (s : State) : Fetched :=
  if s.pc.toInt < 0 then .negativePC
  else
    match s.code[s.pc.toNat]? with
    | some o => .opcode o
    | none => .endOfCode

/-- The advance `PC <- PC + 1` (40_dispatch.md R56). Where the sum leaves int64, which R56 takes as impossible, the PC
is a free value (log 1). -/
def State.advance (s : State) : State :=
  if s.pc.toInt + 1 < 2 ^ 63 then { s with pc := BitVec.ofInt 64 (s.pc.toInt + 1) }
  else { s with pc := Config.freeAdvance s.freeIndex, freeIndex := s.freeIndex + 1 }

/-- `STATUS <- HaltedEndOfCode`; nothing else changes (40_dispatch.md R54). -/
def State.haltEndOfCode (s : State) : State := { s with status := .haltedEndOfCode }

/-- The index at which the next fetch reads, a negative PC being taken to 0 (log 9). -/
def State.fetchIndex (s : State) : Word := if s.pc.toInt < 0 then 0 else s.pc

/-- `code` with byte `b` at index `p`, positions missing before it filled with byte 0, a NOP (log 9). -/
def placeByte (code : List Byte) (p : Nat) (b : Byte) : List Byte :=
  code.take p ++ List.replicate (p - code.length) 0 ++ b :: code.drop (p + 1)

end Sys2Proof.Machine
end

