-- ==== Sys2Proof/Machine/Interface.lean ====
section
/-! DEFINITION. The block's interface to its host (10_state.md section 4): the actions on the input ports, the views on
the output ports, and the two ways in which a feeder drives the block. -/

namespace Sys2Proof.Machine

/-- `Append(bytes)` (10_state.md R26): acts only in `HaltedEndOfCode`; beyond `CODE_CAP` it is a fatal fault with no
opcode. -/
def State.hostAppend (s : State) (bytes : List Byte) : State :=
  match s.status with
  | .haltedEndOfCode =>
    if s.cfg.codeCap.admits (s.code.length + bytes.length) then { s with code := s.code ++ bytes }
    else s.raise .codeBufferOverflow none
  | .running | .haltedByExit | .faultedFatal => s

/-- `Run` (10_state.md R27): acts only in `HaltedEndOfCode`. -/
def State.hostRun (s : State) : State :=
  match s.status with
  | .haltedEndOfCode => { s with status := .running }
  | .running | .haltedByExit | .faultedFatal => s

/-- One host action. -/
def State.hostAct (s : State) : HostAction → State
  | .append bytes => s.hostAppend bytes
  | .run => s.hostRun

/-- What happens while the block is not running (40_dispatch.md R60): the oldest pending host action takes effect, or
nothing happens (log 4, log 5). -/
def State.hostTurn (s : State) : State :=
  match s.host with
  | [] => s
  | a :: later => State.hostAct { s with host := later } a

/-- The 2-bit code of `STATUS` on its port (10_state.md R19). -/
def Status.portCode : Status → BitVec 2
  | .running => 0
  | .haltedEndOfCode => 1
  | .haltedByExit => 2
  | .faultedFatal => 3

/-- The 4-bit code of a fault kind (60_exceptions.md R88). -/
def FaultKind.portCode : FaultKind → BitVec 4
  | .negativePC => 1
  | .addressOutOfRange => 2
  | .stackIndexOutOfRange => 3
  | .stackUnderflow => 4
  | .returnWithoutCall => 5
  | .divisionByZero => 6
  | .operandStackOverflow => 7
  | .callStackOverflow => 8
  | .codeBufferOverflow => 9

/-- `FAULT.valid` on its port (10_state.md R21). -/
def FaultRecord.validBit (f : FaultRecord) : BitVec 1 := if f.valid then 1 else 0

/-- `FAULT.kind` on its port: 0 is no fault (60_exceptions.md R88). -/
def FaultRecord.kindCode (f : FaultRecord) : BitVec 4 :=
  match f.kind with
  | none => 0
  | some k => k.portCode

/-- `FAULT.opcode` on its port: bit 8 is `has_opcode`, bits 7..0 the byte (10_state.md R21). -/
def FaultRecord.opcodeField (f : FaultRecord) : BitVec 9 :=
  match f.opcode with
  | none => 0
  | some o => 1#1 ++ o

/-- `EXIT_CODE` (10_state.md R29; log 14). -/
def State.exitCode (s : State) : Nat :=
  match s.status with
  | .faultedFatal => 1
  | .running | .haltedEndOfCode | .haltedByExit => 0

/-- Batch mode (70_reset_and_hazards.md R102): one `Append` of the whole file, then one `Run`. -/
def batchFeed (file : List Byte) : List HostAction := [.append file, .run]

/-- One interactive line as it is appended: with its terminator if `LINE_TERMINATOR_APPENDED` (00_scope.md R7; the
terminator byte is log 13). -/
def feedLine (terminatorAppended : Bool) (line : List Byte) : List Byte :=
  if terminatorAppended then line ++ [0x0A] else line

/-- Interactive mode (70_reset_and_hazards.md R103): for each line, one `Append` and one `Run`. -/
def interactiveFeed (terminatorAppended : Bool) : List (List Byte) → List HostAction
  | [] => []
  | line :: lines =>
    .append (feedLine terminatorAppended line) :: .run :: interactiveFeed terminatorAppended lines

end Sys2Proof.Machine
end

