-- ==== Sys2Proof/Machine/Step.lean ====
section
/-! DEFINITION. The step of the machine: one run cycle while Running (40_dispatch.md R52), one host action otherwise. -/

namespace Sys2Proof.Machine

/-- One step. While `STATUS = Running`: check the PC, fetch, advance, decode, execute (40_dispatch.md R52). Otherwise
no cycle is enabled (R60) and the host's next action, if there is one, takes effect (10_state.md R26, R27). -/
def step (s : State) : Host.Outcome State Fault Refusal :=
  match s.status with
  | .running =>
    match s.fetch with
    | .negativePC => .next (s.raise .negativePC none)
    | .endOfCode => .next s.haltEndOfCode
    | .opcode o => exec (decodeByte o) s.advance
  | .haltedEndOfCode | .haltedByExit | .faultedFatal => .next s.hostTurn

/-- The state that fetches and runs the byte `w` at its very next step: the byte stands in `CODE` where the fetch
reads, and the block is running. It stands for the host's `Append` and `Run` (70_reset_and_hazards.md R101; log 9). -/
def State.withFetchWord (s : State) (nbits w : Nat) : State :=
  { s with
    code := placeByte s.code s.fetchIndex.toNat (BitVec.ofNat 8 (w % 2 ^ nbits))
    pc := s.fetchIndex
    status := .running }

end Sys2Proof.Machine
end

