-- ==== Sys2Proof/Safety.lean ====
section
/-! DEFINITION. The terms in which claims are stated: terminal statuses, the invariant of reachable states, the faults
each instruction may raise, and runs. -/

namespace Sys2Proof.Machine

/-- A session-terminal status (10_state.md R19, R20). -/
def Status.sessionOver : Status → Bool
  | .running | .haltedEndOfCode => false
  | .haltedByExit | .faultedFatal => true

/-- The operand stack is within `OS_DEPTH` (00_scope.md R4). -/
def State.osFits (s : State) : Prop := s.cfg.osDepth.admits s.os.length = true

/-- The call stack is within `CS_DEPTH` (00_scope.md R4). -/
def State.csFits (s : State) : Prop := s.cfg.csDepth.admits s.cs.length = true

/-- The code buffer is within `CODE_CAP` (00_scope.md R5). -/
def State.codeFits (s : State) : Prop := s.cfg.codeCap.admits s.code.length = true

/-- `FAULT` says what `STATUS` says: it is as at reset until a fault is raised, and then it is valid and names a kind
(10_state.md R21). -/
def State.faultAgrees (s : State) : Prop :=
  (s.status ≠ .faultedFatal → s.fault = .clear) ∧
  (s.status = .faultedFatal → s.fault.valid = true ∧ s.fault.kind ≠ none)

/-- The invariant of reachable states: memory in canonical form (so no cell outside `0 .. 16383`), the three
capacities respected, the fault record in agreement with the status. -/
structure State.Inv (s : State) : Prop where
  mem : s.mem.wf
  os : s.osFits
  cs : s.csFits
  code : s.codeFits
  fault : s.faultAgrees

/-- Every saved PC is a post-advance PC, so at least 1 (10_state.md section 3). -/
def State.returnsPositive (s : State) : Prop := ∀ r ∈ s.cs, 1 ≤ r.toInt

/-- The three faults of finite capacities (60_exceptions.md R88, codes 7 to 9). -/
def FaultKind.isCapacity : FaultKind → Bool
  | .operandStackOverflow | .callStackOverflow | .codeBufferOverflow => true
  | .negativePC | .addressOutOfRange | .stackIndexOutOfRange | .stackUnderflow | .returnWithoutCall
  | .divisionByZero => false

/-- `FAULT` holds a fault of a finite capacity. -/
def State.capacityFault (s : State) : Prop := ∃ k, s.fault.kind = some k ∧ k.isCapacity = true

/-- The faults each instruction may raise, in the order of its checks (60_exceptions.md R88, R90). -/
def faultKindsOf : Instr → List FaultKind
  | .push0 | .push1 | .push2 | .push3 | .push4 | .push5 | .push6 | .push7 | .push8 | .push9 =>
    [.operandStackOverflow]
  | .add | .sub | .mul | .cmp => [.stackUnderflow]
  | .div => [.stackUnderflow, .divisionByZero]
  | .drop | .print | .putc | .goto | .brz => [.stackUnderflow]
  | .pick | .roll => [.stackUnderflow, .stackIndexOutOfRange]
  | .peek | .poke => [.stackUnderflow, .addressOutOfRange]
  | .call => [.callStackOverflow, .stackUnderflow]
  | .ret => [.returnWithoutCall]
  | .exit | .nop _ => []

/-- `k` steps of the machine: `Host.Core.run` of it, on the model's own types. -/
def runSteps : Nat → State → Host.Outcome State Fault Refusal
  | 0, s => .next s
  | k + 1, s =>
    match step s with
    | .next t => runSteps k t
    | .fault r => .fault r
    | .refused r => .refused r

/-- A safe run: no fatal fault within `k` steps. -/
def safeFor (k : Nat) (s : State) : Prop := ∃ t, runSteps k s = .next t ∧ t.status ≠ .faultedFatal

end Sys2Proof.Machine
end

