-- ==== Sys2Proof/Certificates/Slice0/Obligations.lean ====
section
/-! DEFINITION. The statements for the provers. Each docstring names the rule of spec/ it formalises. -/

open Sys2Proof
open Sys2Proof.Machine

/-! ### Encoding -/

/-- 30_encoding.md R45, R48, R49: the 27 opcode bytes, distinct (so that 229 bytes are left), and every other byte
a no-op. -/
def Obligations.OpcodeBytesDecode : Prop :=
  [(0x30, .push0), (0x31, .push1), (0x32, .push2), (0x33, .push3), (0x34, .push4), (0x35, .push5),
   (0x36, .push6), (0x37, .push7), (0x38, .push8), (0x39, .push9), (0x2B, .add), (0x2D, .sub),
   (0x2A, .mul), (0x2F, .div), (0x3A, .cmp), (0x64, .drop), (0x5E, .pick), (0x76, .roll),
   (0x3C, .peek), (0x3E, .poke), (0x67, .goto), (0x3F, .brz), (0x63, .call), (0x24, .ret),
   (0x21, .exit), (0x70, .print), (0x50, .putc)].all
    (fun row : Byte × Instr => decodeByte row.1 == row.2) = true ∧
  (∀ b : Byte, b ∉ opcodeBytes → decodeByte b = .nop b) ∧
  opcodeBytes.length = 27 ∧ opcodeBytes.Nodup ∧
  [0x43, 0x44, 0x47, 0x56].all (fun b : Byte => decodeByte b == .nop b) = true

/-- 30_encoding.md R44, R45, R50: decoding the code of a well-formed instruction gives it back, with the bytes that
follow it untouched. -/
def Obligations.DecodeOfEncodeIsIdentity : Prop :=
  ∀ (i : Instr) (rest : List Byte), i.wf = true → decode (encode i ++ rest) = .ok (i, rest)

/-- 30_encoding.md R51: the program text is the machine code. Reading a text as instructions loses nothing, and writing
well-formed instructions as a text loses nothing. -/
def Obligations.ProgramTextIsMachineCode : Prop :=
  (∀ text : List Byte, encodeAll (decodeAll text) = text ∧
    (decodeAll text).length = text.length ∧ ∀ i ∈ decodeAll text, i.wf = true) ∧
  (∀ program : List Instr, (∀ i ∈ program, i.wf = true) → decodeAll (encodeAll program) = program)

/-! ### Reset and the run cycle -/

/-- 70_reset_and_hazards.md R99: the reset table, for `State.reset` and for a block with any other parameters. The
model's own fields (log 1, log 5) are not part of it. -/
def Obligations.ResetState : Prop :=
  ∀ s : State, (s = State.reset ∨ ∃ cfg, s = State.resetWith cfg) →
    s.code = [] ∧ s.pc = 0 ∧ s.os = [] ∧ s.cs = [] ∧ (∀ k < 16384, s.mem.read k = 0) ∧
    s.status = .haltedEndOfCode ∧ s.status.portCode = 1 ∧
    s.fault.validBit = 0 ∧ s.fault.kindCode = 0 ∧ s.fault.opcodeField = 0 ∧ s.fault.pc = 0 ∧
    s.out = []

/-- 40_dispatch.md R53: a negative PC faults at the fetch, with no opcode and the negative PC in the record. -/
def Obligations.NegativePCFaultsAtFetch : Prop :=
  ∀ s : State, s.status = .running → s.pc.toInt < 0 →
    step s = .next { s with
      status := .faultedFatal
      fault := { valid := true, kind := some .negativePC, opcode := none, pc := s.pc } }

/-- 40_dispatch.md R54: a PC at or beyond the end of the code ends the invocation and changes nothing else; after an
`Append` and a `Run` the next fetch uses the same PC against the longer code. -/
def Obligations.EndOfCodeEndsInvocation : Prop :=
  ∀ s : State, s.status = .running → 0 ≤ s.pc.toInt → (s.code.length : Int) ≤ s.pc.toInt →
    step s = .next { s with status := .haltedEndOfCode } ∧
    ∀ bytes : List Byte, s.cfg.codeCap.admits (s.code.length + bytes.length) = true →
      (State.hostAppend { s with status := .haltedEndOfCode } bytes).hostRun = { s with code := s.code ++ bytes }

/-- 40_dispatch.md R55, R56: the fetch reads the one byte at the PC, the advance adds 1, which cannot overflow, and only
then the byte's instruction is executed. -/
def Obligations.FetchThenAdvanceThenExecute : Prop :=
  ∀ (s : State) (o : Byte), s.status = .running → 0 ≤ s.pc.toInt → s.code[s.pc.toNat]? = some o →
    s.code.length < 2 ^ 63 →
      (s.pc + 1).toInt = s.pc.toInt + 1 ∧ step s = exec (decodeByte o) { s with pc := s.pc + 1 }

/-- A step runs the decoded instruction: where the bytes at the PC decode to `i`, the step is `exec i` on the state with
the PC past it. -/
def Obligations.StepExecutesDecodedInstruction : Prop :=
  ∀ (s : State) (i : Instr) (rest : List Byte),
    s.status = .running → 0 ≤ s.pc.toInt → s.pc.toInt + 1 < 2 ^ 63 →
    decode (s.code.drop s.pc.toNat) = .ok (i, rest) →
      i.wf = true ∧ step s = exec i { s with pc := BitVec.ofInt 64 (s.pc.toInt + 1) }

/-- The model's choice of log 1: an advance from 2^63 - 1 leaves int64, and the PC is then a free value. -/
def Obligations.AdvanceBeyondInt64IsFree : Prop :=
  ∀ (s : State) (o : Byte), s.status = .running → s.pc.toInt = 2 ^ 63 - 1 → s.code[s.pc.toNat]? = some o →
    step s = exec (decodeByte o)
      { s with pc := Config.freeAdvance s.freeIndex, freeIndex := s.freeIndex + 1 }

/-- 40_dispatch.md R60, with the model's choices of log 4 and log 5: while the block does not run, a step is the next
host action, or nothing. -/
def Obligations.IdleStepIsHostAction : Prop :=
  ∀ s : State, s.status ≠ .running →
    (s.host = [] → step s = .next s) ∧
    (∀ bytes later, s.host = .append bytes :: later →
      step s = .next (State.hostAppend { s with host := later } bytes)) ∧
    (∀ later, s.host = .run :: later → step s = .next (State.hostRun { s with host := later }))

/-- No state stops the machine: every step answers a next state, so every fault of the spec is one (log 3). -/
def Obligations.EveryStepAnswersNext : Prop := ∀ s : State, ∃ t, step s = .next t

/-- `withFetchWord` (log 9): the very next step runs the byte, and a code position other than it keeps its byte. -/
def Obligations.FetchWordRunsNext : Prop :=
  ∀ (s : State) (w : Nat),
    let u := s.withFetchWord 8 w
    step u = exec (decodeByte (BitVec.ofNat 8 w)) u.advance ∧
    ∀ (k : Nat) (b : Byte), s.code[k]? = some b → k ≠ s.fetchIndex.toNat → u.code[k]? = some b

/-! ### The host's side of the interface -/

/-- 10_state.md R26: `Append`. -/
def Obligations.AppendRule : Prop :=
  ∀ (s : State) (bytes : List Byte),
    (s.status ≠ .haltedEndOfCode → s.hostAppend bytes = s) ∧
    (s.status = .haltedEndOfCode → s.cfg.codeCap.admits (s.code.length + bytes.length) = true →
      s.hostAppend bytes = { s with code := s.code ++ bytes }) ∧
    (s.status = .haltedEndOfCode → ∀ cap, s.cfg.codeCap = .finite cap → cap < s.code.length + bytes.length →
      s.hostAppend bytes = { s with
        status := .faultedFatal
        fault := { valid := true, kind := some .codeBufferOverflow, opcode := none, pc := s.pc } })

/-- 10_state.md R27: `Run`, and a `Run` with no new code, which halts again at once. -/
def Obligations.RunRule : Prop :=
  ∀ s : State,
    (s.status = .haltedEndOfCode → s.hostRun = { s with status := .running }) ∧
    (s.status ≠ .haltedEndOfCode → s.hostRun = s) ∧
    (s.status = .haltedEndOfCode → 0 ≤ s.pc.toInt → (s.code.length : Int) ≤ s.pc.toInt →
      step s.hostRun = .next s)

/-- 10_state.md R20: the session-terminal statuses are final: no step of the block, however many and whatever the host
has pending, and no action of the host changes any state element; `HaltedEndOfCode` is final only for its invocation. -/
def Obligations.TerminalStatusesAreFinal : Prop :=
  (∀ (s : State) (k : Nat), s.status.sessionOver = true → ∃ t, runSteps k s = .next t ∧
    t.code = s.code ∧ t.pc = s.pc ∧ t.os = s.os ∧ t.cs = s.cs ∧ t.mem = s.mem ∧ t.status = s.status ∧
    t.fault = s.fault ∧ t.out = s.out) ∧
  (∀ (s : State) (a : HostAction), s.status.sessionOver = true → s.hostAct a = s) ∧
  (∀ s : State, s.status = .haltedEndOfCode → s.hostRun.status = .running) ∧
  (∀ st : Status, st.sessionOver = true ↔ st = .haltedByExit ∨ st = .faultedFatal)

/-- 10_state.md R29: `EXIT_CODE` is 1 exactly after a fatal fault, otherwise 0. -/
def Obligations.ExitCodeRule : Prop :=
  ∀ s : State, (s.status = .faultedFatal → s.exitCode = 1) ∧ (s.status ≠ .faultedFatal → s.exitCode = 0)

/-- The port codes of 10_state.md R19 and R21 and of 60_exceptions.md R88, and that each field of `FAULT` on its port is
the code of what the record holds. -/
def Obligations.PortCodes : Prop :=
  ([Status.running, .haltedEndOfCode, .haltedByExit, .faultedFatal].map Status.portCode = [0, 1, 2, 3]) ∧
  ([FaultKind.negativePC, .addressOutOfRange, .stackIndexOutOfRange, .stackUnderflow, .returnWithoutCall,
    .divisionByZero, .operandStackOverflow, .callStackOverflow, .codeBufferOverflow].map FaultKind.portCode =
    [1, 2, 3, 4, 5, 6, 7, 8, 9]) ∧
  (∀ (f : FaultRecord) (o : Byte), f.opcode = some o →
    f.opcodeField.getLsbD 8 = true ∧ f.opcodeField.setWidth 8 = o) ∧
  (∀ f : FaultRecord, f.opcode = none → f.opcodeField = 0) ∧
  (∀ f : FaultRecord, f.kind = none → f.kindCode = 0) ∧
  (∀ (f : FaultRecord) (k : FaultKind), f.kind = some k → f.kindCode = k.portCode) ∧
  (∀ f : FaultRecord, f.validBit = 1 ↔ f.valid = true)

/-- 70_reset_and_hazards.md R100 to R103 and 00_scope.md R7, over the model's queue (log 5, log 13): from reset a batch
feed that fits puts the block in `Running` at index 0 of the file, with everything else as at reset; an interactive
line, with or without its terminator, is appended and run, and the state of the session carries over. -/
def Obligations.HostFeedsStartPrograms : Prop :=
  (∀ (cfg : Config) (file : List Byte), cfg.codeCap.admits file.length = true →
    runSteps 2 { State.resetWith cfg with host := batchFeed file } =
      .next { State.resetWith cfg with code := file, status := .running }) ∧
  (∀ (s : State) (terminated : Bool) (line : List Byte) (lines : List (List Byte)),
    s.status = .haltedEndOfCode → s.host = interactiveFeed terminated (line :: lines) →
    s.cfg.codeCap.admits (s.code.length + line.length + (if terminated then 1 else 0)) = true →
      runSteps 2 s = .next { s with
        code := s.code ++ line ++ (if terminated then [0x0A] else [])
        status := .running
        host := interactiveFeed terminated lines })

/-! ### Operations shared by the instructions -/

/-- 60_exceptions.md R89 and R91: what a fault writes, and that it writes nothing else. -/
def Obligations.FaultEntry : Prop :=
  ∀ (s : State) (kind : FaultKind) (o : Option Byte),
    s.raise kind o = { s with
      status := .faultedFatal
      fault := { valid := true, kind := some kind, opcode := o, pc := s.pc } } ∧
    (s.raise kind o).exitCode = 1

/-- 10_state.md R13, R14, R16, R17: `Pop`, `Push`, `CPush`, `CPop`, each with its fault and the stack it leaves. -/
def Obligations.StackPrimitives : Prop :=
  ∀ (s : State) (o : Byte) (v : Word) (below : List Word) (k : Word → State → State) (r : State → State),
    (s.os = [] → s.pop o k = s.raise .stackUnderflow (some o)) ∧
    (s.os = v :: below → s.pop o k = k v { s with os := below }) ∧
    (s.cfg.osDepth = .unbounded → s.push o v = { s with os := v :: s.os }) ∧
    (∀ d, s.cfg.osDepth = .finite d → s.os.length = d → s.push o v = s.raise .operandStackOverflow (some o)) ∧
    (∀ d, s.cfg.osDepth = .finite d → s.os.length ≠ d → s.push o v = { s with os := v :: s.os }) ∧
    (s.cfg.csDepth = .unbounded → s.cpush o v r = r { s with cs := v :: s.cs }) ∧
    (∀ d, s.cfg.csDepth = .finite d → s.cs.length = d → s.cpush o v r = s.raise .callStackOverflow (some o)) ∧
    (∀ d, s.cfg.csDepth = .finite d → s.cs.length ≠ d → s.cpush o v r = r { s with cs := v :: s.cs }) ∧
    (s.cs = [] → s.cpop o k = s.raise .returnWithoutCall (some o)) ∧
    (s.cs = v :: below → s.cpop o k = k v { s with cs := below }) ∧
    ∀ kind, (s.raise kind (some o)).os = s.os ∧ (s.raise kind (some o)).cs = s.cs

/-! ### Operand stack and ALU -/

/-- 41_stack_alu.md R65 (and 30_encoding.md R46): each digit opcode pushes `zext_64(o - 0x30)`, its digit. A full stack
faults and keeps its contents. -/
def Obligations.DigitsPushTheirValue : Prop :=
  ∀ row ∈ ([(.push0, 0x30, 0), (.push1, 0x31, 1), (.push2, 0x32, 2), (.push3, 0x33, 3), (.push4, 0x34, 4),
      (.push5, 0x35, 5), (.push6, 0x36, 6), (.push7, 0x37, 7), (.push8, 0x38, 8), (.push9, 0x39, 9)] :
      List (Instr × Byte × Word)),
    decodeByte row.2.1 = row.1 ∧ row.2.2 = (row.2.1 - 0x30).setWidth 64 ∧
    ∀ s : State,
      (s.cfg.osDepth = .unbounded → exec row.1 s = .next { s with os := row.2.2 :: s.os }) ∧
      (∀ d, s.cfg.osDepth = .finite d → s.os.length < d →
        exec row.1 s = .next { s with os := row.2.2 :: s.os }) ∧
      (∀ d, s.cfg.osDepth = .finite d → s.os.length = d →
        exec row.1 s = .next (s.raise .operandStackOverflow (some row.2.1)))

/-- 41_stack_alu.md R66: `b + a`, wrapped; underflow on either pop, the first operand already gone on the second. -/
def Obligations.AddRule : Prop :=
  decodeByte 0x2B = .add ∧
  (∀ (s : State) (a b : Word) (rest : List Word), s.os = a :: b :: rest → s.osFits →
    exec .add s = .next { s with os := BitVec.ofInt 64 (b.toInt + a.toInt) :: rest }) ∧
  (∀ s : State, s.os = [] → exec .add s = .next (s.raise .stackUnderflow (some 0x2B))) ∧
  (∀ (s : State) (a : Word), s.os = [a] →
    exec .add s = .next (State.raise { s with os := [] } .stackUnderflow (some 0x2B)))

/-- 41_stack_alu.md R67: `b - a`, the second-popped operand on the left. -/
def Obligations.SubRule : Prop :=
  decodeByte 0x2D = .sub ∧
  (∀ (s : State) (a b : Word) (rest : List Word), s.os = a :: b :: rest → s.osFits →
    exec .sub s = .next { s with os := BitVec.ofInt 64 (b.toInt - a.toInt) :: rest }) ∧
  (∀ s : State, s.os = [] → exec .sub s = .next (s.raise .stackUnderflow (some 0x2D))) ∧
  (∀ (s : State) (a : Word), s.os = [a] →
    exec .sub s = .next (State.raise { s with os := [] } .stackUnderflow (some 0x2D)))

/-- 41_stack_alu.md R68: `b * a`, wrapped. -/
def Obligations.MulRule : Prop :=
  decodeByte 0x2A = .mul ∧
  (∀ (s : State) (a b : Word) (rest : List Word), s.os = a :: b :: rest → s.osFits →
    exec .mul s = .next { s with os := BitVec.ofInt 64 (b.toInt * a.toInt) :: rest }) ∧
  (∀ s : State, s.os = [] → exec .mul s = .next (s.raise .stackUnderflow (some 0x2A))) ∧
  (∀ (s : State) (a : Word), s.os = [a] →
    exec .mul s = .next (State.raise { s with os := [] } .stackUnderflow (some 0x2A)))

/-- 41_stack_alu.md R62: the result of `+`, `-`, `*` is the int64 congruent modulo 2^64 to the exact result, so it is the
exact result whenever that is in int64. -/
def Obligations.ArithmeticIsExactModulo64 : Prop :=
  ∀ (s : State) (a b : Word) (rest : List Word), s.os = a :: b :: rest → s.osFits →
    ∀ row ∈ [(Instr.add, b.toInt + a.toInt), (Instr.sub, b.toInt - a.toInt), (Instr.mul, b.toInt * a.toInt)],
      ∃ r : Word, exec row.1 s = .next { s with os := r :: rest } ∧
        r.toInt % 2 ^ 64 = row.2 % 2 ^ 64 ∧
        (-(2 ^ 63) ≤ row.2 → row.2 < 2 ^ 63 → r.toInt = row.2)

/-- 41_stack_alu.md R69: the quotient, the zero check after both pops, and the underflows. -/
def Obligations.DivRule : Prop :=
  decodeByte 0x2F = .div ∧
  (∀ (s : State) (a b : Word) (rest : List Word), s.os = a :: b :: rest → a ≠ 0 → s.osFits →
    exec .div s = .next { s with os := BitVec.ofInt 64 (b.toInt.tdiv a.toInt) :: rest }) ∧
  (∀ (s : State) (a b : Word) (rest : List Word), s.os = a :: b :: rest → a = 0 →
    exec .div s = .next (State.raise { s with os := rest } .divisionByZero (some 0x2F))) ∧
  (∀ s : State, s.os = [] → exec .div s = .next (s.raise .stackUnderflow (some 0x2F))) ∧
  (∀ (s : State) (a : Word), s.os = [a] →
    exec .div s = .next (State.raise { s with os := [] } .stackUnderflow (some 0x2F)))

/-- 41_stack_alu.md R63: the quotient is the one rounded toward zero: the remainder it leaves is smaller than the divisor
and has the dividend's sign; -2^63 / -1 gives -2^63; a zero divisor faults. -/
def Obligations.QuotientTruncatesTowardZero : Prop :=
  (∀ (s : State) (b : Word) (rest : List Word), s.os = 0 :: b :: rest →
    exec .div s = .next (State.raise { s with os := rest } .divisionByZero (some 0x2F))) ∧
  ∀ (s : State) (a b : Word) (rest : List Word), s.os = a :: b :: rest → a ≠ 0 → s.osFits →
    ∃ q : Word, exec .div s = .next { s with os := q :: rest } ∧
      (b.toInt = -(2 ^ 63) → a.toInt = -1 → q.toInt = -(2 ^ 63)) ∧
      (¬(b.toInt = -(2 ^ 63) ∧ a.toInt = -1) →
        (b.toInt - q.toInt * a.toInt).natAbs < a.toInt.natAbs ∧
        (0 ≤ b.toInt → 0 ≤ b.toInt - q.toInt * a.toInt) ∧
        (b.toInt ≤ 0 → b.toInt - q.toInt * a.toInt ≤ 0) ∧
        (q.toInt < 0 ↔ (b.toInt < 0 ↔ 0 < a.toInt) ∧ q.toInt ≠ 0))

/-- 41_stack_alu.md R64 and R70: the three-way signed comparison of `b` with `a`. -/
def Obligations.CmpRule : Prop :=
  decodeByte 0x3A = .cmp ∧
  (∀ (s : State) (a b : Word) (rest : List Word), s.os = a :: b :: rest → s.osFits →
    (b.toInt < a.toInt → exec .cmp s = .next { s with os := BitVec.ofInt 64 (-1) :: rest }) ∧
    (b.toInt = a.toInt → exec .cmp s = .next { s with os := 0 :: rest }) ∧
    (a.toInt < b.toInt → exec .cmp s = .next { s with os := 1 :: rest })) ∧
  (∀ s : State, s.os = [] → exec .cmp s = .next (s.raise .stackUnderflow (some 0x3A))) ∧
  (∀ (s : State) (a : Word), s.os = [a] →
    exec .cmp s = .next (State.raise { s with os := [] } .stackUnderflow (some 0x3A)))

/-- 41_stack_alu.md R71: drop. -/
def Obligations.DropRule : Prop :=
  decodeByte 0x64 = .drop ∧
  (∀ (s : State) (x : Word) (rest : List Word), s.os = x :: rest → exec .drop s = .next { s with os := rest }) ∧
  (∀ s : State, s.os = [] → exec .drop s = .next (s.raise .stackUnderflow (some 0x64)))

/-- 41_stack_alu.md R72 and R73: pick copies the element at depth `i` of the remaining stack; any other index faults with
the index already popped. -/
def Obligations.PickRule : Prop :=
  decodeByte 0x5E = .pick ∧
  (∀ (s : State) (i v : Word) (rest : List Word), s.os = i :: rest → 0 ≤ i.toInt → rest[i.toNat]? = some v →
    s.osFits → exec .pick s = .next { s with os := v :: rest }) ∧
  (∀ (s : State) (i : Word) (rest : List Word), s.os = i :: rest → (i.toInt < 0 ∨ (rest.length : Int) ≤ i.toInt) →
    exec .pick s = .next (State.raise { s with os := rest } .stackIndexOutOfRange (some 0x5E))) ∧
  (∀ s : State, s.os = [] → exec .pick s = .next (s.raise .stackUnderflow (some 0x5E)))

/-- 41_stack_alu.md R72 and R74: roll moves the element at depth `i` of the remaining stack to its top; the shallower
elements keep their order and move one deeper, the deeper ones do not move. -/
def Obligations.RollRule : Prop :=
  decodeByte 0x76 = .roll ∧
  (∀ (s : State) (i v : Word) (shallow deep : List Word), s.os = i :: (shallow ++ v :: deep) →
    i.toInt = shallow.length → s.osFits →
      exec .roll s = .next { s with os := v :: (shallow ++ deep) }) ∧
  (∀ (s : State) (i : Word) (rest : List Word), s.os = i :: rest → (i.toInt < 0 ∨ (rest.length : Int) ≤ i.toInt) →
    exec .roll s = .next (State.raise { s with os := rest } .stackIndexOutOfRange (some 0x76))) ∧
  (∀ s : State, s.os = [] → exec .roll s = .next (s.raise .stackUnderflow (some 0x76)))

/-! ### Data memory -/

/-- 42_memory_ops.md R75 with 20_memory.md R32: peek pushes the whole cell; an address outside `0 .. 16383` faults with
the address already popped, never clamped. -/
def Obligations.PeekRule : Prop :=
  decodeByte 0x3C = .peek ∧
  (∀ (s : State) (addr : Word) (rest : List Word), s.os = addr :: rest → 0 ≤ addr.toInt → addr.toInt < 16384 →
    s.osFits → exec .peek s = .next { s with os := s.mem.read addr.toInt.toNat :: rest }) ∧
  (∀ (s : State) (addr : Word) (rest : List Word), s.os = addr :: rest → (addr.toInt < 0 ∨ 16384 ≤ addr.toInt) →
    exec .peek s = .next (State.raise { s with os := rest } .addressOutOfRange (some 0x3C))) ∧
  (∀ s : State, s.os = [] → exec .peek s = .next (s.raise .stackUnderflow (some 0x3C)))

/-- 42_memory_ops.md R76 with 20_memory.md R32 and R34: poke stores the second-popped value in the cell the first-popped
address names, and in no other cell; the bounds check comes after both pops. -/
def Obligations.PokeRule : Prop :=
  decodeByte 0x3E = .poke ∧
  (∀ (s : State) (addr value : Word) (rest : List Word), s.os = addr :: value :: rest → 0 ≤ addr.toInt →
    addr.toInt < 16384 → ∃ m : Memory, exec .poke s = .next { s with os := rest, mem := m } ∧
      m.read addr.toInt.toNat = value ∧ ∀ k, k ≠ addr.toInt.toNat → m.read k = s.mem.read k) ∧
  (∀ (s : State) (addr value : Word) (rest : List Word), s.os = addr :: value :: rest →
    (addr.toInt < 0 ∨ 16384 ≤ addr.toInt) →
    exec .poke s = .next (State.raise { s with os := rest } .addressOutOfRange (some 0x3E))) ∧
  (∀ s : State, s.os = [] → exec .poke s = .next (s.raise .stackUnderflow (some 0x3E))) ∧
  (∀ (s : State) (addr : Word), s.os = [addr] →
    exec .poke s = .next (State.raise { s with os := [] } .stackUnderflow (some 0x3E)))

/-- 20_memory.md R34: a peek after a poke gives the poked value at its address and the old value elsewhere. -/
def Obligations.PeekAfterPoke : Prop :=
  ∀ (s : State) (addr value other : Word) (rest : List Word),
    s.os = addr :: value :: other :: rest → 0 ≤ addr.toInt → addr.toInt < 16384 →
    0 ≤ other.toInt → other.toInt < 16384 → s.osFits →
    ∃ t u : State, exec .poke s = .next t ∧ exec .peek t = .next u ∧
      u.os = (if other = addr then value else s.mem.read other.toNat) :: rest

/-- 20_memory.md R33, R34, R37 for the memory itself: read after write, reads elsewhere, and a repeated write, which is
idempotent; a cell that nothing has written reads 0. -/
def Obligations.MemoryCellLaws : Prop :=
  (∀ k : Nat, Memory.read [] k = 0) ∧
  ∀ (m : Memory) (a : Nat) (v w : Word),
    (m.write a v).read a = v ∧ (∀ k, k ≠ a → (m.write a v).read k = m.read k) ∧
    (m.write a v).write a v = m.write a v ∧ (m.write a w).write a v = m.write a v

/-- The canonical form (log 7): two memories in it that read alike are equal, and every write to a cell keeps it. -/
def Obligations.MemoryIsCanonical : Prop :=
  (∀ m m' : Memory, m.wf → m'.wf → (∀ k, m.read k = m'.read k) → m = m') ∧
  (∀ (m : Memory) (a : Nat) (v : Word), m.wf → a < memCells → (m.write a v).wf)

/-! ### Control flow -/

/-- 43_control.md R78 and R79: goto adds the offset to the post-advance PC, modulo 2^64. -/
def Obligations.GotoRule : Prop :=
  decodeByte 0x67 = .goto ∧
  (∀ (s : State) (offset : Word) (rest : List Word), s.os = offset :: rest →
    exec .goto s = .next { s with os := rest, pc := BitVec.ofInt 64 (s.pc.toInt + offset.toInt) }) ∧
  (∀ s : State, s.os = [] → exec .goto s = .next (s.raise .stackUnderflow (some 0x67)))

/-- 43_control.md R80: branch if the condition is zero; both operands are consumed either way. -/
def Obligations.BrzRule : Prop :=
  decodeByte 0x3F = .brz ∧
  (∀ (s : State) (offset cond : Word) (rest : List Word), s.os = offset :: cond :: rest →
    (cond = 0 → exec .brz s = .next { s with os := rest, pc := BitVec.ofInt 64 (s.pc.toInt + offset.toInt) }) ∧
    (cond ≠ 0 → exec .brz s = .next { s with os := rest })) ∧
  (∀ s : State, s.os = [] → exec .brz s = .next (s.raise .stackUnderflow (some 0x3F))) ∧
  (∀ (s : State) (offset : Word), s.os = [offset] →
    exec .brz s = .next (State.raise { s with os := [] } .stackUnderflow (some 0x3F)))

/-- 43_control.md R81: call saves the post-advance PC, then pops its absolute target; a full call stack faults before
the pop, an empty operand stack after the save. -/
def Obligations.CallRule : Prop :=
  decodeByte 0x63 = .call ∧
  (∀ (s : State) (target : Word) (rest : List Word), s.os = target :: rest →
    (s.cfg.csDepth = .unbounded ∨ ∃ d, s.cfg.csDepth = .finite d ∧ s.cs.length < d) →
    exec .call s = .next { s with os := rest, cs := s.pc :: s.cs, pc := target }) ∧
  (∀ (s : State) (d : Nat), s.cfg.csDepth = .finite d → s.cs.length = d →
    exec .call s = .next (s.raise .callStackOverflow (some 0x63))) ∧
  (∀ s : State, s.os = [] → (s.cfg.csDepth = .unbounded ∨ ∃ d, s.cfg.csDepth = .finite d ∧ s.cs.length < d) →
    exec .call s = .next (State.raise { s with cs := s.pc :: s.cs } .stackUnderflow (some 0x63)))

/-- 43_control.md R82: return pops the saved PC; the operand stack is untouched. -/
def Obligations.RetRule : Prop :=
  decodeByte 0x24 = .ret ∧
  (∀ (s : State) (r : Word) (rest : List Word), s.cs = r :: rest →
    exec .ret s = .next { s with cs := rest, pc := r }) ∧
  (∀ s : State, s.cs = [] → exec .ret s = .next (s.raise .returnWithoutCall (some 0x24)))

/-- 43_control.md R83: exit ends the session with code 0; nothing the host sends later has an effect. -/
def Obligations.ExitRule : Prop :=
  decodeByte 0x21 = .exit ∧
  ∀ s : State, exec .exit s = .next { s with status := .haltedByExit } ∧
    State.exitCode { s with status := .haltedByExit } = 0 ∧
    ∀ a : HostAction, State.hostAct { s with status := .haltedByExit } a = { s with status := .haltedByExit }

/-- 40_dispatch.md R58: a no-op changes nothing, and a run of NOPs only moves the PC forward by one per byte. -/
def Obligations.NopRule : Prop :=
  (∀ b : Byte, b ∉ opcodeBytes → decodeByte b = .nop b ∧ ∀ s : State, exec (.nop b) s = .next s) ∧
  (∀ (k : Nat) (s : State), s.status = .running → 0 ≤ s.pc.toInt → s.pc.toInt + k < 2 ^ 63 →
    (∀ j < k, ∃ b, s.code[s.pc.toNat + j]? = some b ∧ b ∉ opcodeBytes) →
      runSteps k s = .next { s with pc := BitVec.ofInt 64 (s.pc.toInt + k) })

/-! ### Output -/

/-- 44_io.md R86: print emits the decimal text, first byte to last; nothing is emitted on an empty stack. -/
def Obligations.PrintRule : Prop :=
  decodeByte 0x70 = .print ∧
  (∀ (s : State) (x : Word) (rest : List Word), s.os = x :: rest →
    exec .print s = .next { s with os := rest, out := s.out ++ dec x }) ∧
  (∀ s : State, s.os = [] → exec .print s = .next (s.raise .stackUnderflow (some 0x70)))

/-- 44_io.md R85: the decimal text: a minus sign exactly for a negative value, then the digits of the exact magnitude,
most significant first, no leading zeros, the text of 0 being one `0`. -/
def Obligations.DecimalTextIsExact : Prop :=
  ∀ v : Word, ∃ digits : List Byte,
    dec v = (if v.toInt < 0 then 0x2D :: digits else digits) ∧
    digits ≠ [] ∧ (∀ d ∈ digits, 0x30 ≤ d.toNat ∧ d.toNat ≤ 0x39) ∧
    (digits.head? = some 0x30 → digits = [0x30] ∧ v = 0) ∧
    digits.foldl (fun n d => 10 * n + (d.toNat - 0x30)) 0 = v.toInt.natAbs

/-- 44_io.md R87: putc emits the value modulo 256 as one byte. -/
def Obligations.PutcRule : Prop :=
  decodeByte 0x50 = .putc ∧
  (∀ (s : State) (x : Word) (rest : List Word), s.os = x :: rest →
    ∃ e : Byte, (e.toNat : Int) = x.toInt % 256 ∧ exec .putc s = .next { s with os := rest, out := s.out ++ [e] }) ∧
  (∀ s : State, s.os = [] → exec .putc s = .next (s.raise .stackUnderflow (some 0x50)))

/-! ### Frames -/

/-- 10_state.md R18: only POKE changes a cell, and only the cell its address names. -/
def Obligations.MemoryFrame : Prop :=
  (∀ (i : Instr) (s t : State), i ≠ .poke → exec i s = .next t → ∀ k, t.mem.read k = s.mem.read k) ∧
  (∀ s t : State, exec .poke s = .next t → ∀ (addr value : Word) (rest : List Word), s.os = addr :: value :: rest →
    (0 ≤ addr.toInt ∧ addr.toInt < memCells →
      ∀ k, k ≠ addr.toNat → t.mem.read k = s.mem.read k) ∧
    (¬(0 ≤ addr.toInt ∧ addr.toInt < memCells) → ∀ k, t.mem.read k = s.mem.read k)) ∧
  (∀ s t : State, exec .poke s = .next t → s.os.length < 2 → ∀ k, t.mem.read k = s.mem.read k)

/-- 10_state.md R11 and R15: no instruction but GOTO, BRZ, CALL and RET writes the PC, and none but CALL and RET changes
the call stack. -/
def Obligations.PCAndCallStackFrame : Prop :=
  ∀ (i : Instr) (s t : State), exec i s = .next t →
    (i ∉ [Instr.goto, .brz, .call, .ret] → t.pc = s.pc) ∧
    (i ∉ [Instr.call, .ret] → t.cs = s.cs) ∧
    (i = .ret → ∃ popped, s.cs = popped ++ t.cs) ∧
    (i = .call → t.cs = s.cs ∨ t.cs = s.pc :: s.cs)

/-- 30_encoding.md R47: the stack effect of every instruction that does not fault: below the operands it pops, the
operand stack is untouched, and at most one value is pushed. ROLL, which reaches below, has its own rule (R74). -/
def Obligations.OperandStackFrame : Prop :=
  ∀ (i : Instr) (s t : State), exec i s = .next t → t.status ≠ .faultedFatal →
    (i ∈ [Instr.push0, .push1, .push2, .push3, .push4, .push5, .push6, .push7, .push8, .push9] →
      ∃ v, t.os = v :: s.os) ∧
    (i ∈ [Instr.add, .sub, .mul, .div, .cmp] → ∃ v, t.os = v :: s.os.drop 2) ∧
    (i ∈ [Instr.pick, .peek] → ∃ v, t.os = v :: s.os.drop 1) ∧
    (i ∈ [Instr.drop, .goto, .call, .print, .putc] → t.os = s.os.drop 1) ∧
    (i ∈ [Instr.poke, .brz] → t.os = s.os.drop 2) ∧
    ((i ∈ [Instr.ret, .exit] ∨ ∃ b, i = .nop b) → t.os = s.os)

/-- 10_state.md R28: only PRINT and PUTC emit, and what was emitted stays; the history of the output port changes nothing
else. -/
def Obligations.OutputFrame : Prop :=
  ∀ (i : Instr) (s t : State), exec i s = .next t →
    (i ∉ [Instr.print, .putc] → t.out = s.out) ∧
    ∃ emitted : List Byte, t.out = s.out ++ emitted ∧
      ∀ earlier : List Byte, exec i { s with out := earlier } = .next { t with out := earlier ++ emitted }

/-- 60_exceptions.md R88, R89 and R90: an instruction leaves STATUS and FAULT alone, or is EXIT, or raises one of the
faults its rule names, recorded with its own byte and the PC of the execute phase. -/
def Obligations.StatusAndFaultFrame : Prop :=
  ∀ (i : Instr) (s t : State), s.osFits → exec i s = .next t →
    (i ≠ .exit ∧ t.status = s.status ∧ t.fault = s.fault) ∨
    (i = .exit ∧ t.status = .haltedByExit ∧ t.fault = s.fault) ∨
    (∃ kind ∈ faultKindsOf i, t.status = .faultedFatal ∧ t.pc = s.pc ∧
      t.fault = { valid := true, kind := some kind, opcode := some (encodeByte i), pc := s.pc })

/-- 10_state.md R10 and 20_memory.md R42: CODE is append-only, grows only by the host while the block is halted, and no
instruction changes it; the block's parameters never change. -/
def Obligations.CodeIsAppendOnly : Prop :=
  (∀ (i : Instr) (s t : State), exec i s = .next t → t.code = s.code ∧ t.host = s.host ∧ t.cfg = s.cfg ∧
    t.freeIndex = s.freeIndex) ∧
  (∀ s t : State, step s = .next t → t.cfg = s.cfg ∧ s.code <+: t.code ∧ (s.status = .running → t.code = s.code))

/-! ### Isolation -/

/-- 10_state.md R15: the call stack is not reachable but by CALL and RET. -/
def Obligations.CallStackIsInvisible : Prop :=
  ∀ (i : Instr) (s t : State) (cs : List Word), i ≠ .call → i ≠ .ret → exec i s = .next t →
    exec i { s with cs := cs } = .next { t with cs := cs }

/-- 20_memory.md R31: data memory is not reachable but by PEEK and POKE, and code not at all: other contents give the
same effects. -/
def Obligations.MemoryAndCodeAreInvisible : Prop :=
  ∀ (i : Instr) (s t : State), exec i s = .next t →
    (∀ code : List Byte, exec i { s with code := code } = .next { t with code := code }) ∧
    (∀ m : Memory, i ≠ .peek → i ≠ .poke → exec i { s with mem := m } = .next { t with mem := m })

/-- 10_state.md R23: no instruction reads STATUS or FAULT. From a given rest of the state, one of three things happens
whatever STATUS and FAULT hold, with the same state `t` in every other field: both are left as they are; or the
instruction is EXIT, which sets the one STATUS and leaves FAULT; or the one valid fault record is raised. -/
def Obligations.ControlStateIsInvisible : Prop :=
  ∀ (i : Instr) (s : State), ∃ t : State,
    (∀ st f, exec i { s with status := st, fault := f } = .next { t with status := st, fault := f }) ∨
    (i = .exit ∧
      ∀ st f, exec i { s with status := st, fault := f } = .next { t with status := .haltedByExit, fault := f }) ∨
    (∃ raised : FaultRecord, raised.valid = true ∧
      ∀ st f, exec i { s with status := st, fault := f } =
        .next { t with status := .faultedFatal, fault := raised })

/-! ### Whole-machine rules -/

/-- The invariant holds at reset, for a block with any parameters. -/
def Obligations.ResetMeetsInvariant : Prop := ∀ cfg : Config, (State.resetWith cfg).Inv

/-- Every step keeps the invariant: memory canonical and inside `0 .. 16383`, the capacities of 00_scope.md R4 and R5
respected, `FAULT` in agreement with `STATUS` (10_state.md R21). -/
def Obligations.StepKeepsInvariant : Prop := ∀ s t : State, s.Inv → step s = .next t → t.Inv

/-- 10_state.md section 3: every saved PC is at least 1, so a return never makes the PC negative. -/
def Obligations.SavedPCsArePositive : Prop :=
  (∀ s t : State, s.code.length < 2 ^ 63 → s.returnsPositive → step s = .next t → t.returnsPositive) ∧
  (∀ s t : State, s.returnsPositive → s.cs ≠ [] → exec .ret s = .next t → 1 ≤ t.pc.toInt)

/-- 40_dispatch.md R60: "the only way execution stops is end-of-code, explicit exit, or a fatal fault". -/
def Obligations.ExecutionStopsThreeWays : Prop :=
  ∀ s t : State, s.status = .running → step s = .next t → t.status ≠ .running →
    (t.status = .haltedEndOfCode ∧ 0 ≤ s.pc.toInt ∧ (s.code.length : Int) ≤ s.pc.toInt ∧
      t = { s with status := .haltedEndOfCode }) ∨
    (t.status = .haltedByExit ∧ 0 ≤ s.pc.toInt ∧ s.code[s.pc.toNat]? = some 0x21 ∧ t.fault = s.fault) ∨
    (t.status = .faultedFatal ∧ t.fault.valid = true ∧ t.fault.kind ≠ none ∧ t.fault.pc = t.pc ∧
      t.fault.kind ≠ some .codeBufferOverflow)

/-- 60_exceptions.md R88: the faults of finite capacities never occur when the capacity is unbounded. -/
def Obligations.UnboundedNeverOverflows : Prop :=
  ∀ s t : State, s.cfg = .reference → ¬s.capacityFault → step s = .next t → ¬t.capacityFault

/-- 92_eei_decisions.md D10, D11: a block with finite capacities does, in any number of steps, exactly what the unbounded
reference does, unless a fault of a finite capacity ends its session. -/
def Obligations.BoundedRunMatchesReference : Prop :=
  ∀ (k : Nat) (s t : State), s.Inv → runSteps k s = .next t → ¬t.capacityFault →
    runSteps k { s with cfg := .reference } = .next { t with cfg := .reference }
end

