-- ==== Sys2Proof/Laws/Alu.lean ====
section
/-! SUPPORT. Laws of the arithmetic: wrap64 is congruent modulo 2^64, the specification's truncated quotient is Lean's,
and the test of BRZ is equality with 0. -/

namespace Sys2Proof.Machine

theorem toInt_wrap64 (x : Int) : (wrap64 x).toInt = x.bmod (2 ^ 64) := by simp [wrap64]

theorem wrap64_toInt (v : Word) : wrap64 v.toInt = v := by simp [wrap64]

/-- `trunc_div` as 00_scope.md section 5 writes it is the truncated division of the integers. -/
theorem truncDiv_eq_tdiv (b a : Int) : truncDiv b a = b.tdiv a := by
  have key : ∀ m n : Nat, (m : Int).sign * (n : Int).sign * ((m / n : Nat) : Int) = ((m / n : Nat) : Int) := by
    intro m n
    rcases Nat.eq_zero_or_pos m with rfl | hm
    · simp
    rcases Nat.eq_zero_or_pos n with rfl | hn
    · simp
    simp [Int.sign_eq_one_of_pos, hm, hn]
  unfold truncDiv
  rcases Int.eq_nat_or_neg b with ⟨m, rfl | rfl⟩ <;> rcases Int.eq_nat_or_neg a with ⟨n, rfl | rfl⟩ <;>
    simp [Int.neg_tdiv, Int.tdiv_neg] <;> simpa using key m n

theorem branchTaken_iff (c : Word) : branchTaken c = true ↔ c = 0 := by
  simp [branchTaken, ← BitVec.toInt_inj]

end Sys2Proof.Machine
end

