-- ==== Sys2Proof/Laws/Decode.lean ====
section
/-! SUPPORT. Laws of the decoder and the encoder. -/

namespace Sys2Proof

theorem mem_opcodeBytes_of_lookup : ∀ (b : Byte) (i : Instr), opcodeRows.lookup b = some i → encodeByte i = b ∧ b ∈ opcodeBytes := by
  intro b i h
  have key : ∀ row ∈ opcodeRows, encodeByte row.2 = row.1 ∧ row.1 ∈ opcodeBytes := by decide
  have find : ∀ rows : List (Byte × Instr), rows.lookup b = some i → (b, i) ∈ rows := by
    intro rows
    induction rows with
    | nil => simp
    | cons row rows ih =>
      intro hl
      rw [List.lookup_cons] at hl
      split at hl
      · rename_i hb
        obtain rfl : b = row.1 := by simpa using hb
        obtain rfl : row.2 = i := by simpa using hl
        exact List.mem_cons_self
      · exact List.mem_cons_of_mem _ (ih hl)
  exact key (b, i) (find _ h)

theorem lookup_of_mem_opcodeBytes : ∀ b ∈ opcodeBytes, ∃ i, opcodeRows.lookup b = some i := by
  have h : ∀ b ∈ opcodeBytes, (opcodeRows.lookup b).isSome = true := by decide
  exact fun b hb => Option.isSome_iff_exists.mp (h b hb)

/-- Every byte that is no opcode is a no-op (30_encoding.md R48). -/
theorem decodeByte_of_not_mem {b : Byte} (h : b ∉ opcodeBytes) : decodeByte b = .nop b := by
  unfold decodeByte
  split
  · rename_i i hi
    exact absurd (mem_opcodeBytes_of_lookup b i hi).2 h
  · rfl

/-- Decoding a byte loses nothing. -/
@[simp] theorem encodeByte_decodeByte (b : Byte) : encodeByte (decodeByte b) = b := by
  unfold decodeByte
  split
  · rename_i i hi
    exact (mem_opcodeBytes_of_lookup b i hi).1
  · rfl

/-- The decoder answers well-formed instructions only. -/
@[simp] theorem decodeByte_wf (b : Byte) : (decodeByte b).wf = true := by
  by_cases h : b ∈ opcodeBytes
  · have all : ∀ b ∈ opcodeBytes, (decodeByte b).wf = true := by decide
    exact all b h
  · rw [decodeByte_of_not_mem h]
    simpa [Instr.wf] using h

theorem encode_length (i : Instr) : (encode i).length = 1 := rfl

end Sys2Proof
end

