-- ==== Sys2Proof/Laws/State.lean ====
section
/-! SUPPORT. One lemma per field per unconditional update of the state. -/

namespace Sys2Proof.Machine

variable (s : State)

@[simp] theorem State.raise_code (kind : FaultKind) (o : Option Byte) : (s.raise kind o).code = s.code := rfl
@[simp] theorem State.raise_pc (kind : FaultKind) (o : Option Byte) : (s.raise kind o).pc = s.pc := rfl
@[simp] theorem State.raise_os (kind : FaultKind) (o : Option Byte) : (s.raise kind o).os = s.os := rfl
@[simp] theorem State.raise_cs (kind : FaultKind) (o : Option Byte) : (s.raise kind o).cs = s.cs := rfl
@[simp] theorem State.raise_mem (kind : FaultKind) (o : Option Byte) : (s.raise kind o).mem = s.mem := rfl
@[simp] theorem State.raise_status (kind : FaultKind) (o : Option Byte) : (s.raise kind o).status = .faultedFatal := rfl
@[simp] theorem State.raise_fault (kind : FaultKind) (o : Option Byte) : (s.raise kind o).fault = { valid := true, kind := some kind, opcode := o, pc := s.pc } := rfl
@[simp] theorem State.raise_out (kind : FaultKind) (o : Option Byte) : (s.raise kind o).out = s.out := rfl
@[simp] theorem State.raise_host (kind : FaultKind) (o : Option Byte) : (s.raise kind o).host = s.host := rfl
@[simp] theorem State.raise_cfg (kind : FaultKind) (o : Option Byte) : (s.raise kind o).cfg = s.cfg := rfl
@[simp] theorem State.raise_freeIndex (kind : FaultKind) (o : Option Byte) : (s.raise kind o).freeIndex = s.freeIndex := rfl

@[simp] theorem State.memWrite_code (a : Nat) (v : Word) : (s.memWrite a v).code = s.code := rfl
@[simp] theorem State.memWrite_pc (a : Nat) (v : Word) : (s.memWrite a v).pc = s.pc := rfl
@[simp] theorem State.memWrite_os (a : Nat) (v : Word) : (s.memWrite a v).os = s.os := rfl
@[simp] theorem State.memWrite_cs (a : Nat) (v : Word) : (s.memWrite a v).cs = s.cs := rfl
@[simp] theorem State.memWrite_mem (a : Nat) (v : Word) : (s.memWrite a v).mem = s.mem.write a v := rfl
@[simp] theorem State.memWrite_status (a : Nat) (v : Word) : (s.memWrite a v).status = s.status := rfl
@[simp] theorem State.memWrite_fault (a : Nat) (v : Word) : (s.memWrite a v).fault = s.fault := rfl
@[simp] theorem State.memWrite_out (a : Nat) (v : Word) : (s.memWrite a v).out = s.out := rfl
@[simp] theorem State.memWrite_host (a : Nat) (v : Word) : (s.memWrite a v).host = s.host := rfl
@[simp] theorem State.memWrite_cfg (a : Nat) (v : Word) : (s.memWrite a v).cfg = s.cfg := rfl
@[simp] theorem State.memWrite_freeIndex (a : Nat) (v : Word) : (s.memWrite a v).freeIndex = s.freeIndex := rfl

@[simp] theorem State.emit_code (b : Byte) : (s.emit b).code = s.code := rfl
@[simp] theorem State.emit_pc (b : Byte) : (s.emit b).pc = s.pc := rfl
@[simp] theorem State.emit_os (b : Byte) : (s.emit b).os = s.os := rfl
@[simp] theorem State.emit_cs (b : Byte) : (s.emit b).cs = s.cs := rfl
@[simp] theorem State.emit_mem (b : Byte) : (s.emit b).mem = s.mem := rfl
@[simp] theorem State.emit_status (b : Byte) : (s.emit b).status = s.status := rfl
@[simp] theorem State.emit_fault (b : Byte) : (s.emit b).fault = s.fault := rfl
@[simp] theorem State.emit_out (b : Byte) : (s.emit b).out = s.out ++ [b] := rfl
@[simp] theorem State.emit_host (b : Byte) : (s.emit b).host = s.host := rfl
@[simp] theorem State.emit_cfg (b : Byte) : (s.emit b).cfg = s.cfg := rfl
@[simp] theorem State.emit_freeIndex (b : Byte) : (s.emit b).freeIndex = s.freeIndex := rfl

@[simp] theorem State.setPc_code (target : Word) : (s.setPc target).code = s.code := rfl
@[simp] theorem State.setPc_pc (target : Word) : (s.setPc target).pc = target := rfl
@[simp] theorem State.setPc_os (target : Word) : (s.setPc target).os = s.os := rfl
@[simp] theorem State.setPc_cs (target : Word) : (s.setPc target).cs = s.cs := rfl
@[simp] theorem State.setPc_mem (target : Word) : (s.setPc target).mem = s.mem := rfl
@[simp] theorem State.setPc_status (target : Word) : (s.setPc target).status = s.status := rfl
@[simp] theorem State.setPc_fault (target : Word) : (s.setPc target).fault = s.fault := rfl
@[simp] theorem State.setPc_out (target : Word) : (s.setPc target).out = s.out := rfl
@[simp] theorem State.setPc_host (target : Word) : (s.setPc target).host = s.host := rfl
@[simp] theorem State.setPc_cfg (target : Word) : (s.setPc target).cfg = s.cfg := rfl
@[simp] theorem State.setPc_freeIndex (target : Word) : (s.setPc target).freeIndex = s.freeIndex := rfl

@[simp] theorem State.exitSession_code : (s.exitSession).code = s.code := rfl
@[simp] theorem State.exitSession_pc : (s.exitSession).pc = s.pc := rfl
@[simp] theorem State.exitSession_os : (s.exitSession).os = s.os := rfl
@[simp] theorem State.exitSession_cs : (s.exitSession).cs = s.cs := rfl
@[simp] theorem State.exitSession_mem : (s.exitSession).mem = s.mem := rfl
@[simp] theorem State.exitSession_status : (s.exitSession).status = .haltedByExit := rfl
@[simp] theorem State.exitSession_fault : (s.exitSession).fault = s.fault := rfl
@[simp] theorem State.exitSession_out : (s.exitSession).out = s.out := rfl
@[simp] theorem State.exitSession_host : (s.exitSession).host = s.host := rfl
@[simp] theorem State.exitSession_cfg : (s.exitSession).cfg = s.cfg := rfl
@[simp] theorem State.exitSession_freeIndex : (s.exitSession).freeIndex = s.freeIndex := rfl

@[simp] theorem State.haltEndOfCode_code : (s.haltEndOfCode).code = s.code := rfl
@[simp] theorem State.haltEndOfCode_pc : (s.haltEndOfCode).pc = s.pc := rfl
@[simp] theorem State.haltEndOfCode_os : (s.haltEndOfCode).os = s.os := rfl
@[simp] theorem State.haltEndOfCode_cs : (s.haltEndOfCode).cs = s.cs := rfl
@[simp] theorem State.haltEndOfCode_mem : (s.haltEndOfCode).mem = s.mem := rfl
@[simp] theorem State.haltEndOfCode_status : (s.haltEndOfCode).status = .haltedEndOfCode := rfl
@[simp] theorem State.haltEndOfCode_fault : (s.haltEndOfCode).fault = s.fault := rfl
@[simp] theorem State.haltEndOfCode_out : (s.haltEndOfCode).out = s.out := rfl
@[simp] theorem State.haltEndOfCode_host : (s.haltEndOfCode).host = s.host := rfl
@[simp] theorem State.haltEndOfCode_cfg : (s.haltEndOfCode).cfg = s.cfg := rfl
@[simp] theorem State.haltEndOfCode_freeIndex : (s.haltEndOfCode).freeIndex = s.freeIndex := rfl

@[simp] theorem State.memRead_eq (a : Nat) : s.memRead a = s.mem.read a := rfl

end Sys2Proof.Machine
end

