-- ==== Sys2Proof/Laws/Ops.lean ====
section
/-! SUPPORT. The laws of the shared operations: what each can do, said once, and the memory's read-over-write and
canonical-form laws. -/

namespace Sys2Proof

@[simp] theorem Capacity.isFull_unbounded (n : Nat) : Capacity.unbounded.isFull n = false := rfl
@[simp] theorem Capacity.admits_unbounded (n : Nat) : Capacity.unbounded.admits n = true := rfl
@[simp] theorem Capacity.isFull_finite (d n : Nat) : (Capacity.finite d).isFull n = (n == d) := rfl
@[simp] theorem Capacity.admits_finite (d n : Nat) : (Capacity.finite d).admits n = decide (n ≤ d) := rfl

theorem Capacity.admits_mono {c : Capacity} {m n : Nat} (h : c.admits n = true) (hm : m ≤ n) : c.admits m = true := by
  cases c with
  | unbounded => rfl
  | finite d => simp only [admits_finite, decide_eq_true_eq] at *; omega

/-- Room below the capacity: one more element is still within it. -/
theorem Capacity.admits_succ {c : Capacity} {n : Nat} (h : c.admits n = true) (hf : c.isFull n = false) :
    c.admits (n + 1) = true := by
  cases c with
  | unbounded => rfl
  | finite d => simp only [admits_finite, isFull_finite, decide_eq_true_eq, beq_eq_false_iff_ne] at *; omega

/-- Below a sequence that is within the capacity there is room. -/
theorem Capacity.not_full_of_lt {c : Capacity} {m n : Nat} (h : c.admits n = true) (hm : m < n) :
    c.isFull m = false := by
  cases c with
  | unbounded => rfl
  | finite d => simp only [admits_finite, isFull_finite, decide_eq_true_eq, beq_eq_false_iff_ne] at *; omega

end Sys2Proof

namespace Sys2Proof.Machine

/-! ### The two stacks -/

theorem State.pop_nil {s : State} (h : s.os = []) (o : Byte) (k : Word → State → State) :
    s.pop o k = s.raise .stackUnderflow (some o) := by simp [State.pop, h]

theorem State.pop_cons {s : State} {v : Word} {below : List Word} (h : s.os = v :: below) (o : Byte)
    (k : Word → State → State) : s.pop o k = k v { s with os := below } := by simp [State.pop, h]

/-- Everything `Pop` can do. -/
theorem State.pop_cases (P : State → Prop) {s : State} {o : Byte} {k : Word → State → State}
    (empty : s.os = [] → P (s.raise .stackUnderflow (some o)))
    (popped : ∀ v below, s.os = v :: below → P (k v { s with os := below })) : P (s.pop o k) := by
  rcases h : s.os with _ | ⟨v, below⟩
  · rw [pop_nil h]; exact empty h
  · rw [pop_cons h]; exact popped v below h

theorem State.push_room {s : State} (h : s.cfg.osDepth.isFull s.os.length = false) (o : Byte) (v : Word) :
    s.push o v = { s with os := v :: s.os } := by simp [State.push, h]

theorem State.push_full {s : State} (h : s.cfg.osDepth.isFull s.os.length = true) (o : Byte) (v : Word) :
    s.push o v = s.raise .operandStackOverflow (some o) := by simp [State.push, h]

/-- Everything `Push` can do. -/
theorem State.push_cases (P : State → Prop) {s : State} {o : Byte} {v : Word}
    (full : s.cfg.osDepth.isFull s.os.length = true → P (s.raise .operandStackOverflow (some o)))
    (room : s.cfg.osDepth.isFull s.os.length = false → P { s with os := v :: s.os }) : P (s.push o v) := by
  cases h : s.cfg.osDepth.isFull s.os.length with
  | true => rw [push_full h]; exact full h
  | false => rw [push_room h]; exact room h

theorem State.cpush_room {s : State} (h : s.cfg.csDepth.isFull s.cs.length = false) (o : Byte) (v : Word)
    (k : State → State) : s.cpush o v k = k { s with cs := v :: s.cs } := by simp [State.cpush, h]

theorem State.cpush_full {s : State} (h : s.cfg.csDepth.isFull s.cs.length = true) (o : Byte) (v : Word)
    (k : State → State) : s.cpush o v k = s.raise .callStackOverflow (some o) := by simp [State.cpush, h]

/-- Everything `CPush` can do. -/
theorem State.cpush_cases (P : State → Prop) {s : State} {o : Byte} {v : Word} {k : State → State}
    (full : s.cfg.csDepth.isFull s.cs.length = true → P (s.raise .callStackOverflow (some o)))
    (room : s.cfg.csDepth.isFull s.cs.length = false → P (k { s with cs := v :: s.cs })) : P (s.cpush o v k) := by
  cases h : s.cfg.csDepth.isFull s.cs.length with
  | true => rw [cpush_full h]; exact full h
  | false => rw [cpush_room h]; exact room h

theorem State.cpop_nil {s : State} (h : s.cs = []) (o : Byte) (k : Word → State → State) :
    s.cpop o k = s.raise .returnWithoutCall (some o) := by simp [State.cpop, h]

theorem State.cpop_cons {s : State} {v : Word} {below : List Word} (h : s.cs = v :: below) (o : Byte)
    (k : Word → State → State) : s.cpop o k = k v { s with cs := below } := by simp [State.cpop, h]

/-- Everything `CPop` can do. -/
theorem State.cpop_cases (P : State → Prop) {s : State} {o : Byte} {k : Word → State → State}
    (empty : s.cs = [] → P (s.raise .returnWithoutCall (some o)))
    (popped : ∀ v below, s.cs = v :: below → P (k v { s with cs := below })) : P (s.cpop o k) := by
  rcases h : s.cs with _ | ⟨v, below⟩
  · rw [cpop_nil h]; exact empty h
  · rw [cpop_cons h]; exact popped v below h

/-! ### Data memory -/

@[simp] theorem Memory.read_nil (a : Nat) : Memory.read [] a = 0 := rfl

@[simp] theorem Memory.read_cons (k : Nat) (w : Word) (m : Memory) (a : Nat) :
    Memory.read ((k, w) :: m) a = if k = a then w else Memory.read m a := rfl

theorem Memory.read_erase (m : Memory) (a k : Nat) : (m.erase a).read k = if k = a then 0 else m.read k := by
  induction m with
  | nil => simp [Memory.erase]
  | cons c m ih =>
    obtain ⟨j, w⟩ := c
    simp only [Memory.erase, List.filter_cons] at ih ⊢
    by_cases hj : j = a
    · subst hj
      by_cases hk : k = j
      · subst hk; simpa using ih
      · simpa [hk, Ne.symm hk] using ih
    · by_cases hk : k = a
      · subst hk; simpa [hj] using ih
      · by_cases hjk : j = k
        · simp [hjk, hk]
        · simpa [hj, hjk, hk] using ih

theorem Memory.read_insert_other (m : Memory) {a k : Nat} (v : Word) (h : k ≠ a) : (m.insert a v).read k = m.read k := by
  induction m with
  | nil => simp [Memory.insert, Ne.symm h]
  | cons c m ih =>
    obtain ⟨j, w⟩ := c
    unfold Memory.insert
    split
    · simp [Ne.symm h]
    · simp [ih]

theorem Memory.read_insert_same (m : Memory) {a : Nat} (v : Word) (h : ∀ c ∈ m, c.1 ≠ a) : (m.insert a v).read a = v := by
  induction m with
  | nil => simp [Memory.insert]
  | cons c m ih =>
    obtain ⟨j, w⟩ := c
    unfold Memory.insert
    split
    · simp
    · have hj : j ≠ a := h (j, w) List.mem_cons_self
      simp [hj, ih fun c hc => h c (List.mem_cons_of_mem _ hc)]

theorem Memory.erase_no_entry (m : Memory) (a : Nat) : ∀ c ∈ m.erase a, c.1 ≠ a := by
  intro c hc
  simpa using (List.mem_filter.mp hc).2

theorem Memory.mem_insert {m : Memory} {a : Nat} {v : Word} {c : Nat × Word} (h : c ∈ m.insert a v) :
    c = (a, v) ∨ c ∈ m := by
  induction m with
  | nil => simpa [Memory.insert] using h
  | cons d m ih =>
    obtain ⟨j, w⟩ := d
    unfold Memory.insert at h
    split at h
    · simpa using h
    · rcases List.mem_cons.mp h with rfl | h
      · simp
      · rcases ih h with rfl | h
        · simp
        · simp [h]

theorem Memory.insert_sorted {m : Memory} {a : Nat} (v : Word) (hs : m.Pairwise fun c d => c.1 < d.1)
    (ha : ∀ c ∈ m, c.1 ≠ a) : (m.insert a v).Pairwise fun c d => c.1 < d.1 := by
  induction m with
  | nil => simp [Memory.insert]
  | cons d m ih =>
    obtain ⟨j, w⟩ := d
    obtain ⟨hj, hs⟩ := List.pairwise_cons.mp hs
    have hja : j ≠ a := ha (j, w) List.mem_cons_self
    unfold Memory.insert
    split
    · rename_i hlt
      refine List.pairwise_cons.mpr ⟨fun c hc => ?_, List.pairwise_cons.mpr ⟨hj, hs⟩⟩
      rcases List.mem_cons.mp hc with rfl | hc
      · exact hlt
      · exact hlt.trans (hj c hc)
    · refine List.pairwise_cons.mpr ⟨fun c hc => ?_, ih hs fun c hc => ha c (List.mem_cons_of_mem _ hc)⟩
      rcases Memory.mem_insert hc with rfl | hc
      · show j < a
        omega
      · exact hj c hc

/-- Every write keeps the canonical form. -/
theorem Memory.wf_write {m : Memory} {a : Nat} (v : Word) (h : m.wf) (ha : a < memCells) : (m.write a v).wf := by
  have he : (m.erase a).wf := ⟨h.1.filter _, fun c hc => h.2 c (List.mem_filter.mp hc).1⟩
  unfold Memory.write
  split
  · exact he
  · rename_i hv
    refine ⟨Memory.insert_sorted v he.1 (m.erase_no_entry a), fun c hc => ?_⟩
    rcases Memory.mem_insert hc with rfl | hc
    · exact ⟨ha, hv⟩
    · exact he.2 c hc

/-- A read of the cell written gives the value written (20_memory.md R34). -/
theorem Memory.read_write_same (m : Memory) (a : Nat) (v : Word) : (m.write a v).read a = v := by
  unfold Memory.write
  split
  · rename_i h
    rw [Memory.read_erase, if_pos rfl, h]
  · exact Memory.read_insert_same _ v (m.erase_no_entry a)

/-- A write leaves every other cell alone (20_memory.md R34). -/
theorem Memory.read_write_other (m : Memory) {a k : Nat} (v : Word) (h : k ≠ a) :
    (m.write a v).read k = m.read k := by
  unfold Memory.write
  split
  · rw [Memory.read_erase, if_neg h]
  · rw [Memory.read_insert_other _ v h, Memory.read_erase, if_neg h]

theorem Memory.wf_nil : Memory.wf [] := ⟨.nil, fun _ h => absurd h List.not_mem_nil⟩

end Sys2Proof.Machine
end

