-- ==== Sys2Proof/Laws/Operands.lean ====
section
/-! SUPPORT. The laws of the operand forms: what each can do, said once. -/

namespace Sys2Proof.Machine

theorem toNat_of_toInt_nonneg {a : Word} (h : 0 ≤ a.toInt) : (a.toNat : Int) = a.toInt := by
  have := a.isLt
  rw [BitVec.toInt_eq_toNat_cond] at *
  split at * <;> omega

/-- Everything the two-operand form can do. -/
theorem State.popTwo_cases (P : State → Prop) {s : State} {o : Byte} {k : Word → Word → State → State}
    (empty : s.os = [] → P (s.raise .stackUnderflow (some o)))
    (single : ∀ a, s.os = [a] → P (State.raise { s with os := [] } .stackUnderflow (some o)))
    (popped : ∀ a b below, s.os = a :: b :: below → P (k a b { s with os := below })) : P (s.popTwo o k) := by
  refine State.pop_cases P empty fun a below h => ?_
  refine State.pop_cases P (fun h' => ?_) fun b below' h' => ?_
  · obtain rfl : below = [] := h'
    exact single a h
  · obtain rfl : below = b :: below' := h'
    exact popped a b below' h

theorem State.popTwo_cons {s : State} {a b : Word} {below : List Word} (h : s.os = a :: b :: below) (o : Byte)
    (k : Word → Word → State → State) : s.popTwo o k = k a b { s with os := below } := by
  rw [State.popTwo, State.pop_cons h, State.pop_cons rfl]

theorem State.popTwo_nil {s : State} (h : s.os = []) (o : Byte) (k : Word → Word → State → State) :
    s.popTwo o k = s.raise .stackUnderflow (some o) := by rw [State.popTwo, State.pop_nil h]

theorem State.popTwo_one {s : State} {a : Word} (h : s.os = [a]) (o : Byte) (k : Word → Word → State → State) :
    s.popTwo o k = State.raise { s with os := [] } .stackUnderflow (some o) := by
  rw [State.popTwo, State.pop_cons h, State.pop_nil rfl]

theorem State.translate_inside {s : State} {a : Word} (h : 0 ≤ a.toInt ∧ a.toInt < memCells) (o : Byte)
    (k : Nat → State) : s.translate o a k = k a.toNat := if_pos h

theorem State.translate_outside {s : State} {a : Word} (h : ¬(0 ≤ a.toInt ∧ a.toInt < memCells)) (o : Byte)
    (k : Nat → State) : s.translate o a k = s.raise .addressOutOfRange (some o) := if_neg h

/-- Everything the address translator can do (20_memory.md R32). -/
theorem State.translate_cases (P : State → Prop) {s : State} {o : Byte} {a : Word} {k : Nat → State}
    (outside : ¬(0 ≤ a.toInt ∧ a.toInt < memCells) → P (s.raise .addressOutOfRange (some o)))
    (inside : a.toNat < memCells → 0 ≤ a.toInt → P (k a.toNat)) : P (s.translate o a k) := by
  unfold State.translate
  split
  · rename_i h
    have := toNat_of_toInt_nonneg h.1
    exact inside (by omega) h.1
  · rename_i h
    exact outside h

/-- Everything the offset resolver can do (41_stack_alu.md R72). -/
theorem State.resolve_cases (P : State → Prop) {s : State} {o : Byte} {i : Word} {k : Nat → Word → State}
    (outside : ¬(0 ≤ i.toInt ∧ i.toInt < s.os.length) → P (s.raise .stackIndexOutOfRange (some o)))
    (inside : ∀ v, 0 ≤ i.toInt → i.toNat < s.os.length → s.os[i.toNat]? = some v → P (k i.toNat v)) :
    P (s.resolve o i k) := by
  unfold State.resolve
  split
  · exact outside (by omega)
  · rename_i hneg
    have hi := toNat_of_toInt_nonneg (Int.not_lt.mp hneg)
    split
    · rename_i v hv
      exact inside v (by omega) (List.getElem?_eq_some_iff.mp hv).1 hv
    · rename_i hv
      have := List.getElem?_eq_none_iff.mp hv
      exact outside (by omega)

theorem State.resolve_outside {s : State} {i : Word} (h : i.toInt < 0 ∨ (s.os.length : Int) ≤ i.toInt) (o : Byte)
    (k : Nat → Word → State) : s.resolve o i k = s.raise .stackIndexOutOfRange (some o) := by
  refine State.resolve_cases (fun t => t = _) (fun _ => rfl) fun v h0 hl _ => ?_
  have := toNat_of_toInt_nonneg h0
  omega

theorem State.resolve_inside {s : State} {i v : Word} (h : 0 ≤ i.toInt) (hv : s.os[i.toNat]? = some v) (o : Byte)
    (k : Nat → Word → State) : s.resolve o i k = k i.toNat v := by simp [State.resolve, not_lt.mpr h, hv]

end Sys2Proof.Machine
end

