-- ==== Sys2Proof/Laws/Output.lean ====
section
/-! SUPPORT. Laws of the output port. -/

namespace Sys2Proof.Machine

/-- Emitting bytes one by one appends them in order (10_state.md R28). -/
theorem foldl_emit (bytes : List Byte) (s : State) : bytes.foldl State.emit s = { s with out := s.out ++ bytes } := by
  induction bytes generalizing s with
  | nil => simp
  | cons b bytes ih => simp [ih, State.emit]

end Sys2Proof.Machine
end

