-- ==== Sys2Proof/Laws/PerInstr.lean ====
section
/-! SUPPORT. The per-instruction family `DecodesBack`: the byte of a well-formed instruction decodes to it. -/

namespace Sys2Proof.Laws.DecodesBack

/-- The byte the encoder gives a well-formed instruction is read back as that instruction (30_encoding.md R45). -/
def Statement (i : Instr) : Prop := i.wf = true → decodeByte (encodeByte i) = i

theorem push0 : Statement .push0 := fun _ => by decide
theorem push1 : Statement .push1 := fun _ => by decide
theorem push2 : Statement .push2 := fun _ => by decide
theorem push3 : Statement .push3 := fun _ => by decide
theorem push4 : Statement .push4 := fun _ => by decide
theorem push5 : Statement .push5 := fun _ => by decide
theorem push6 : Statement .push6 := fun _ => by decide
theorem push7 : Statement .push7 := fun _ => by decide
theorem push8 : Statement .push8 := fun _ => by decide
theorem push9 : Statement .push9 := fun _ => by decide
theorem add : Statement .add := fun _ => by decide
theorem sub : Statement .sub := fun _ => by decide
theorem mul : Statement .mul := fun _ => by decide
theorem div : Statement .div := fun _ => by decide
theorem cmp : Statement .cmp := fun _ => by decide
theorem drop : Statement .drop := fun _ => by decide
theorem pick : Statement .pick := fun _ => by decide
theorem roll : Statement .roll := fun _ => by decide
theorem peek : Statement .peek := fun _ => by decide
theorem poke : Statement .poke := fun _ => by decide
theorem goto : Statement .goto := fun _ => by decide
theorem brz : Statement .brz := fun _ => by decide
theorem call : Statement .call := fun _ => by decide
theorem ret : Statement .ret := fun _ => by decide
theorem exit : Statement .exit := fun _ => by decide
theorem print : Statement .print := fun _ => by decide
theorem putc : Statement .putc := fun _ => by decide
theorem nop (b : Byte) : Statement (.nop b) := fun h =>
  decodeByte_of_not_mem (show b ∉ opcodeBytes by simpa [Instr.wf] using h)

end Sys2Proof.Laws.DecodesBack
end

