-- ==== Sys2Proof/Laws/Step.lean ====
section
/-! SUPPORT. The laws of the step: what the fetch, the advance and one step can do, said once, and runs of steps. -/

namespace Sys2Proof.Machine

/-- The fetch below 0 (40_dispatch.md R53). -/
theorem State.fetch_negative {s : State} (h : s.pc.toInt < 0) : s.fetch = .negativePC := by simp [State.fetch, h]

/-- The fetch at or beyond the end (40_dispatch.md R54). -/
theorem State.fetch_end {s : State} (h : 0 ≤ s.pc.toInt) (hl : (s.code.length : Int) ≤ s.pc.toInt) :
    s.fetch = .endOfCode := by
  have hn := toNat_of_toInt_nonneg h
  have : s.code[s.pc.toNat]? = none := List.getElem?_eq_none_iff.mpr (by omega)
  simp [State.fetch, not_lt.mpr h, this]

/-- The fetch of a byte (40_dispatch.md R55). -/
theorem State.fetch_opcode {s : State} {o : Byte} (h : 0 ≤ s.pc.toInt) (ho : s.code[s.pc.toNat]? = some o) :
    s.fetch = .opcode o := by simp [State.fetch, not_lt.mpr h, ho]

/-- Everything the fetch can find. -/
theorem State.fetch_inv (s : State) :
    (s.pc.toInt < 0 ∧ s.fetch = .negativePC) ∨
    (0 ≤ s.pc.toInt ∧ (s.code.length : Int) ≤ s.pc.toInt ∧ s.fetch = .endOfCode) ∨
    (∃ o, 0 ≤ s.pc.toInt ∧ s.pc.toInt < s.code.length ∧ s.code[s.pc.toNat]? = some o ∧ s.fetch = .opcode o) := by
  rcases lt_or_ge s.pc.toInt 0 with h | h
  · exact .inl ⟨h, s.fetch_negative h⟩
  · have hn := toNat_of_toInt_nonneg h
    rcases ho : s.code[s.pc.toNat]? with _ | o
    · have := List.getElem?_eq_none_iff.mp ho
      exact .inr (.inl ⟨h, by omega, s.fetch_end h (by omega)⟩)
    · have := (List.getElem?_eq_some_iff.mp ho).1
      exact .inr (.inr ⟨o, h, by omega, rfl, s.fetch_opcode h ho⟩)

/-- The advance inside int64 (40_dispatch.md R56). -/
theorem State.advance_eq {s : State} (h : s.pc.toInt + 1 < 2 ^ 63) :
    s.advance = { s with pc := BitVec.ofInt 64 (s.pc.toInt + 1) } := if_pos h

theorem toInt_ofInt_of_range {x : Int} (lo : -(2 ^ 63) ≤ x) (hi : x < 2 ^ 63) : (BitVec.ofInt 64 x).toInt = x := by
  rw [BitVec.toInt_ofInt]
  exact Int.bmod_eq_of_le (by omega) (by omega)

/-- The advance changes the PC and the counter of free values only. -/
theorem State.advance_inv (s : State) : ∃ pc n, s.advance = { s with pc := pc, freeIndex := n } := by
  unfold State.advance
  split
  · exact ⟨_, s.freeIndex, rfl⟩
  · exact ⟨_, _, rfl⟩

theorem step_idle {s : State} (h : s.status ≠ .running) : step s = .next s.hostTurn := by
  cases hs : s.status <;> simp_all [step]

theorem step_negative {s : State} (hr : s.status = .running) (h : s.pc.toInt < 0) :
    step s = .next (s.raise .negativePC none) := by simp [step, hr, State.fetch_negative h]

theorem step_end {s : State} (hr : s.status = .running) (h : 0 ≤ s.pc.toInt)
    (hl : (s.code.length : Int) ≤ s.pc.toInt) : step s = .next s.haltEndOfCode := by
  simp [step, hr, State.fetch_end h hl]

theorem step_opcode {s : State} {o : Byte} (hr : s.status = .running) (h : 0 ≤ s.pc.toInt)
    (ho : s.code[s.pc.toNat]? = some o) : step s = exec (decodeByte o) s.advance := by
  simp [step, hr, State.fetch_opcode h ho]

/-- Everything a host action can do (10_state.md R26, R27). -/
theorem State.hostAct_cases (P : State → Prop) {s : State} {a : HostAction}
    (nothing : P s)
    (appended : ∀ bytes, s.status = .haltedEndOfCode →
      s.cfg.codeCap.admits (s.code.length + bytes.length) = true → P { s with code := s.code ++ bytes })
    (overflow : ∀ bytes : List Byte, s.status = .haltedEndOfCode →
      s.cfg.codeCap.admits (s.code.length + bytes.length) = false → P (s.raise .codeBufferOverflow none))
    (started : s.status = .haltedEndOfCode → P { s with status := .running }) : P (s.hostAct a) := by
  cases a with
  | append bytes =>
    show P (s.hostAppend bytes)
    rcases hs : s.status with _ | _ | _ | _
    case haltedEndOfCode =>
      cases hc : s.cfg.codeCap.admits (s.code.length + bytes.length) with
      | true => simpa [State.hostAppend, hs, hc] using appended bytes hs hc
      | false => simpa [State.hostAppend, hs, hc] using overflow bytes hs hc
    all_goals simpa [State.hostAppend, hs] using nothing
  | run =>
    show P s.hostRun
    rcases hs : s.status with _ | _ | _ | _
    case haltedEndOfCode => simpa [State.hostRun, hs] using started hs
    all_goals simpa [State.hostRun, hs] using nothing

/-- Within the capacity, a push after a pop has room. -/
theorem State.osFits.room {s : State} {n : Nat} (h : s.osFits) (hn : n < s.os.length) :
    s.cfg.osDepth.isFull n = false := Capacity.not_full_of_lt h hn

/-- No meaning stops: `exec` always answers a next state (log 3). -/
theorem exec_answers_next (i : Instr) (s : State) : ∃ t, exec i s = .next t := by
  cases i <;> exact ⟨_, rfl⟩

@[simp] theorem runSteps_zero (s : State) : runSteps 0 s = .next s := rfl

theorem runSteps_succ {s t : State} (k : Nat) (h : step s = .next t) : runSteps (k + 1) s = runSteps k t := by
  simp [runSteps, h]

/-- `runSteps` is the host's own run of the machine. -/
theorem core_run_eq_runSteps (k : Nat) (s : State) : Host.Core.run Sys2Proof.core k s = runSteps k s := by
  induction k generalizing s with
  | zero => rfl
  | succ k ih =>
    have h := Host.Core.run.eq_2 Sys2Proof.core s k
    rw [runSteps]
    cases hs : step s with
    | next t =>
      have hc : core.step s = .next t := hs
      exact h.trans (by rw [hc]; exact ih t)
    | fault r => cases r
    | refused r =>
      have hc : core.step s = .refused r := hs
      exact h.trans (by rw [hc]; rfl)

end Sys2Proof.Machine
end

