-- ==== Sys2Proof/Tests/Slice0.lean ====
section
/-! SUPPORT. The model's own tests, with expected results from spec/95_test_vectors.md (the vector's id in each
comment), and for each statement with hypotheses a witness that meets them. -/

namespace Sys2Proof.Tests

open Sys2Proof.Machine

/-! ### Helpers -/

/-- A running block with the given operand stack, otherwise as after reset. -/
def onStack (os : List Word) : State := { State.reset with status := .running, os := os }

/-- A running block with the given code, otherwise as after reset. -/
def onCode (code : List Byte) : State := { State.reset with status := .running, code := code }

/-- One observation of the state an instruction leaves. -/
def seen {α : Type} (f : State → α) (i : Instr) (s : State) : Option α :=
  match exec i s with
  | .next t => some (f t)
  | .fault _ => none
  | .refused _ => none

/-- One observation of the state a step leaves. -/
def seenStep {α : Type} (f : State → α) (s : State) : Option α :=
  match step s with
  | .next t => some (f t)
  | .fault _ => none
  | .refused _ => none

/-- What a test of a fault looks at. -/
def faultView (s : State) : Status × Option FaultKind × Option Byte × List Word :=
  (s.status, s.fault.kind, s.fault.opcode, s.os)

/-! ### Well-formedness: the one check, on ill-formed terms -/

theorem test_wf_refuses_nop_of_opcode : (Instr.nop 0x2B).wf = false := by decide
theorem test_wf_refuses_every_nop_of_opcode : opcodeBytes.all (fun b => !(Instr.nop b).wf) = true := by decide
theorem test_wf_accepts_space : (Instr.nop 0x20).wf = true := by decide

/-! ### Decoding: bits 7..0 of 30_encoding.md R45 -/

theorem test_decode_push0 : decodeByte 0b00110000 = .push0 := by decide
theorem test_decode_push1 : decodeByte 0b00110001 = .push1 := by decide
theorem test_decode_push2 : decodeByte 0b00110010 = .push2 := by decide
theorem test_decode_push3 : decodeByte 0b00110011 = .push3 := by decide
theorem test_decode_push4 : decodeByte 0b00110100 = .push4 := by decide
theorem test_decode_push5 : decodeByte 0b00110101 = .push5 := by decide
theorem test_decode_push6 : decodeByte 0b00110110 = .push6 := by decide
theorem test_decode_push7 : decodeByte 0b00110111 = .push7 := by decide
theorem test_decode_push8 : decodeByte 0b00111000 = .push8 := by decide
theorem test_decode_push9 : decodeByte 0b00111001 = .push9 := by decide
theorem test_decode_add : decodeByte 0b00101011 = .add := by decide
theorem test_decode_sub : decodeByte 0b00101101 = .sub := by decide
theorem test_decode_mul : decodeByte 0b00101010 = .mul := by decide
theorem test_decode_div : decodeByte 0b00101111 = .div := by decide
theorem test_decode_cmp : decodeByte 0b00111010 = .cmp := by decide
theorem test_decode_drop : decodeByte 0b01100100 = .drop := by decide
theorem test_decode_pick : decodeByte 0b01011110 = .pick := by decide
theorem test_decode_roll : decodeByte 0b01110110 = .roll := by decide
theorem test_decode_peek : decodeByte 0b00111100 = .peek := by decide
theorem test_decode_poke : decodeByte 0b00111110 = .poke := by decide
theorem test_decode_goto : decodeByte 0b01100111 = .goto := by decide
theorem test_decode_brz : decodeByte 0b00111111 = .brz := by decide
theorem test_decode_call : decodeByte 0b01100011 = .call := by decide
theorem test_decode_ret : decodeByte 0b00100100 = .ret := by decide
theorem test_decode_exit : decodeByte 0b00100001 = .exit := by decide
theorem test_decode_print : decodeByte 0b01110000 = .print := by decide
theorem test_decode_putc : decodeByte 0b01010000 = .putc := by decide
theorem test_decode_nop : decodeByte 0b00100000 = .nop 0b00100000 := by decide
theorem test_decode_capital_g : decodeByte 0x47 = .nop 0x47 := by decide
theorem test_decode_high_byte : decodeByte 0xFF = .nop 0xFF := by decide
theorem test_decode_takes_one_byte : decode [0x33, 0x34] = .ok (.push3, [0x34]) := by rfl
theorem test_decode_empty : decode [] = .error .noByte := by rfl
theorem test_table_word : decodeTableWord 8 43 = some .add := by decide
theorem test_table_word_nop : decodeTableWord 8 0 = some (.nop 0) := by decide

/-! ### One step of each instruction -/

-- VS1, VS2
theorem test_push7 : seen State.os .push7 (onStack []) = some [7] := by decide
theorem test_push0 : seen State.os .push0 (onStack [3]) = some [0, 3] := by decide
theorem test_push1 : seen State.os .push1 (onStack []) = some [1] := by decide
theorem test_push2 : seen State.os .push2 (onStack []) = some [2] := by decide
theorem test_push3 : seen State.os .push3 (onStack []) = some [3] := by decide
theorem test_push4 : seen State.os .push4 (onStack []) = some [4] := by decide
theorem test_push5 : seen State.os .push5 (onStack []) = some [5] := by decide
theorem test_push6 : seen State.os .push6 (onStack []) = some [6] := by decide
theorem test_push8 : seen State.os .push8 (onStack []) = some [8] := by decide
theorem test_push9 : seen State.os .push9 (onStack []) = some [9] := by decide
-- VS42
theorem test_push_overflow :
    seen faultView .push7 { onStack [1] with cfg := { Config.reference with osDepth := .finite 1 } } =
      some (.faultedFatal, some .operandStackOverflow, some 0x37, [1]) := by decide
-- VS4; VF4 (the operand left after the first pop)
theorem test_add_wraps : seen State.os .add (onStack [1, 9223372036854775807]) = some [-9223372036854775808] := by decide
theorem test_add_underflow :
    seen faultView .add (onStack [5]) = some (.faultedFatal, some .stackUnderflow, some 0x2B, []) := by decide
-- VS6, VS8
theorem test_sub_order : seen State.os .sub (onStack [3, 4]) = some [1] := by decide
theorem test_sub_wraps : seen State.os .sub (onStack [1, -9223372036854775808]) = some [9223372036854775807] := by decide
-- VS11, VS12
theorem test_mul_wraps : seen State.os .mul (onStack [2, 9223372036854775807]) = some [-2] := by decide
theorem test_mul_min : seen State.os .mul (onStack [-1, -9223372036854775808]) = some [-9223372036854775808] := by decide
-- VS15, VS20
theorem test_div_truncates : seen State.os .div (onStack [2, -7]) = some [-3] := by decide
theorem test_div_by_zero :
    seen faultView .div (onStack [0, 5]) = some (.faultedFatal, some .divisionByZero, some 0x2F, []) := by decide
-- VS22, VS25
theorem test_cmp_below : seen State.os .cmp (onStack [4, 3]) = some [-1] := by decide
theorem test_cmp_signed : seen State.os .cmp (onStack [1, -1]) = some [-1] := by decide
-- VS27, VS28
theorem test_drop : seen State.os .drop (onStack [5, 9]) = some [9] := by decide
theorem test_drop_empty :
    seen faultView .drop (onStack []) = some (.faultedFatal, some .stackUnderflow, some 0x64, []) := by decide
-- VS30, VS31
theorem test_pick : seen State.os .pick (onStack [2, 30, 20, 10]) = some [10, 30, 20, 10] := by decide
theorem test_pick_boundary :
    seen faultView .pick (onStack [3, 30, 20, 10]) =
      some (.faultedFatal, some .stackIndexOutOfRange, some 0x5E, [30, 20, 10]) := by decide
-- VS37, VS38
theorem test_roll : seen State.os .roll (onStack [2, 30, 20, 10]) = some [10, 30, 20] := by decide
theorem test_roll_boundary :
    seen faultView .roll (onStack [2, 1, 2]) =
      some (.faultedFatal, some .stackIndexOutOfRange, some 0x76, [1, 2]) := by decide
-- VM2, VM4
theorem test_peek_last_cell :
    seen State.os .peek { onStack [16383] with mem := [(16383, -8)] } = some [-8] := by decide
theorem test_peek_negative :
    seen faultView .peek (onStack [-1]) = some (.faultedFatal, some .addressOutOfRange, some 0x3C, []) := by decide
-- VM6, VM9
theorem test_poke : seen (fun t => (t.os, t.mem)) .poke (onStack [100, 42]) = some ([], [(100, 42)]) := by decide
theorem test_poke_underflow_first :
    seen faultView .poke (onStack [16384]) = some (.faultedFatal, some .stackUnderflow, some 0x3E, []) := by decide
-- VC1: the `g` at @2 with offset 3 goes to @6
theorem test_goto : seen State.pc .goto { onStack [3, 7] with pc := 3 } = some 6 := by decide
-- VC4
theorem test_goto_empty :
    seen (fun t => (t.fault.kind, t.fault.pc, t.pc)) .goto { onStack [] with pc := 1 } =
      some (some .stackUnderflow, 1, 1) := by decide
-- VC5, VC7
theorem test_brz_taken : seen (fun t => (t.pc, t.os)) .brz { onStack [3, 0, 8] with pc := 4 } = some (7, [8]) := by decide
theorem test_brz_not_taken : seen (fun t => (t.pc, t.os)) .brz { onStack [2, -1] with pc := 5 } = some (5, []) := by decide
-- VC9, VC10
theorem test_call : seen (fun t => (t.pc, t.cs, t.os)) .call { onStack [4] with pc := 2 } = some (4, [2], []) := by decide
theorem test_call_saves_before_pop :
    seen (fun t => (t.fault.kind, t.cs)) .call { onStack [] with pc := 1 } = some (some .stackUnderflow, [1]) := by decide
-- VC9, VC14
theorem test_ret : seen (fun t => (t.pc, t.cs)) .ret { onStack [5] with pc := 6, cs := [2] } = some (2, []) := by decide
theorem test_ret_without_call :
    seen faultView .ret (onStack []) = some (.faultedFatal, some .returnWithoutCall, some 0x24, []) := by decide
-- VC15
theorem test_exit : seen (fun t => (t.status, t.pc, t.exitCode)) .exit { onStack [1] with pc := 2 } =
    some (.haltedByExit, 2, 0) := by decide
-- VO2, VO12
theorem test_print_negative : seen State.out .print (onStack [-5]) = some [0x2D, 0x35] := by decide
theorem test_print_min : seen State.out .print (onStack [-9223372036854775808]) =
    some [0x2D, 0x39, 0x32, 0x32, 0x33, 0x33, 0x37, 0x32, 0x30, 0x33, 0x36, 0x38, 0x35, 0x34, 0x37, 0x37, 0x35, 0x38,
      0x30, 0x38] := by decide
-- VO7, VO8
theorem test_putc_negative : seen State.out .putc (onStack [-1]) = some [0xFF] := by decide
theorem test_putc_reduces : seen State.out .putc (onStack [256]) = some [0] := by decide
-- VD2
theorem test_nop : seenStep (fun t => (t.pc, t.os)) (onCode [0x20, 0x35]) = some (1, []) := by decide

/-! ### The run cycle and the interface -/

-- VD1
theorem test_run_empty_code : seenStep State.status (onCode []) = some .haltedEndOfCode := by decide
-- VD4
theorem test_negative_pc :
    seenStep (fun t => (t.fault.kind, t.fault.opcode, t.fault.pc)) { onCode [0x30] with pc := -5 } =
      some (some .negativePC, none, -5) := by decide
-- VF3
theorem test_code_overflow :
    let s := ({ State.reset with cfg := { Config.reference with codeCap := .finite 3 } } : State).hostAppend
      [0x31, 0x32, 0x33, 0x34]
    (s.fault.kind, s.fault.opcode, s.fault.pc, s.code) = (some .codeBufferOverflow, none, 0, []) := by decide
-- VD8
theorem test_append_after_exit :
    ({ State.reset with status := .haltedByExit } : State).hostAppend [0x35] =
      { State.reset with status := .haltedByExit } := by decide
-- P6 with LINE_TERMINATOR_APPENDED
theorem test_feed_lines : interactiveFeed true [[0x33], [0x34, 0x2B, 0x70]] =
    [.append [0x33, 0x0A], .run, .append [0x34, 0x2B, 0x70, 0x0A], .run] := by decide
-- VF1: the first instruction after reset
theorem test_fetch_word_after_reset :
    seenStep (fun t => (t.os, t.pc)) (State.reset.withFetchWord 8 0x37) = some ([7], 1) := by decide

/-! ### Witnesses: for each statement with hypotheses, states and operands that meet them, clause by clause -/

/-- The parameters of a small block. -/
def small : Config := { osDepth := .finite 2, csDepth := .finite 1, codeCap := .finite 3 }

/-- A running block with small capacities. -/
def bounded (os cs : List Word) : State := { State.resetWith small with status := .running, os := os, cs := cs }

theorem witness_OpcodeBytesDecode : (0x20 : Byte) ∉ opcodeBytes := by decide

theorem witness_DecodeOfEncodeIsIdentity : Instr.wf .add = true ∧ Instr.wf (.nop 0xFF) = true := by decide

theorem witness_ProgramTextIsMachineCode : ∀ i ∈ [Instr.push3, .nop 0x0A, .ret], i.wf = true := by decide

theorem witness_ResetState :
    State.reset = State.reset ∧ ∃ cfg, State.resetWith small = State.resetWith cfg := ⟨rfl, small, rfl⟩

theorem witness_NegativePCFaultsAtFetch :
    let s := { onCode [0x30] with pc := -1 }
    s.status = .running ∧ s.pc.toInt < 0 := by decide

theorem witness_EndOfCodeEndsInvocation :
    let s := { bounded [] [] with code := [0x30], pc := 1 }
    s.status = .running ∧ 0 ≤ s.pc.toInt ∧ (s.code.length : Int) ≤ s.pc.toInt ∧
      s.cfg.codeCap.admits (s.code.length + [0x31, (0x32 : Byte)].length) = true := by decide

theorem witness_FetchThenAdvanceThenExecute :
    let s := { onCode [0x30, 0x67] with pc := 1 }
    s.status = .running ∧ 0 ≤ s.pc.toInt ∧ s.code[s.pc.toNat]? = some 0x67 ∧ s.code.length < 2 ^ 63 := by decide

theorem witness_StepExecutesDecodedInstruction :
    let s := { onCode [0x30, 0x20, 0x67] with pc := 1 }
    s.status = .running ∧ 0 ≤ s.pc.toInt ∧ s.pc.toInt + 1 < 2 ^ 63 ∧
      decode (s.code.drop s.pc.toNat) = .ok (.nop 0x20, [0x67]) := ⟨by decide, by decide, by decide, rfl⟩

theorem code_of_spaces (n : Nat) (pc : Word) (h : pc.toNat < n) :
    ({ onCode (List.replicate n 0x20) with pc := pc } : State).code[pc.toNat]? = some 0x20 := by
  simp [onCode, h]

theorem witness_AdvanceBeyondInt64IsFree :
    ∃ s : State, s.status = .running ∧ s.pc.toInt = 2 ^ 63 - 1 ∧ s.code[s.pc.toNat]? = some 0x20 :=
  ⟨{ onCode (List.replicate (2 ^ 63) 0x20) with pc := 9223372036854775807 }, rfl, by decide,
    code_of_spaces _ _ (by decide)⟩

theorem witness_IdleStepIsHostAction :
    State.reset.status ≠ .running ∧ State.reset.host = [] ∧
    ({ State.reset with host := [.append [0x21], .run] } : State).host = .append [0x21] :: [.run] ∧
    ({ State.reset with host := [.run] } : State).host = .run :: [] := by decide

theorem witness_FetchWordRunsNext :
    (onCode [0x20, 0x21]).code[1]? = some 0x21 ∧ 1 ≠ (onCode [0x20, 0x21]).fetchIndex.toNat := by decide

theorem witness_AppendRule :
    (bounded [] []).status ≠ .haltedEndOfCode ∧
    (State.resetWith small).status = .haltedEndOfCode ∧ small.codeCap = .finite 3 ∧
    small.codeCap.admits ((State.resetWith small).code.length + [0x31, 0x32, (0x33 : Byte)].length) = true ∧
    3 < (State.resetWith small).code.length + [0x31, 0x32, 0x33, (0x34 : Byte)].length := by decide

theorem witness_RunRule :
    State.reset.status = .haltedEndOfCode ∧ (0 : Int) ≤ State.reset.pc.toInt ∧
    (State.reset.code.length : Int) ≤ State.reset.pc.toInt ∧ (onStack []).status ≠ .haltedEndOfCode := by decide

theorem witness_TerminalStatusesAreFinal :
    ({ State.reset with status := .haltedByExit } : State).status.sessionOver = true ∧
    ({ State.reset with status := .faultedFatal } : State).status.sessionOver = true ∧
    State.reset.status = .haltedEndOfCode := by decide

theorem witness_ExitCodeRule :
    ((onStack []).raise .stackUnderflow none).status = .faultedFatal ∧ (onStack []).status ≠ .faultedFatal := by decide

theorem witness_PortCodes :
    ((onStack []).raise .stackUnderflow (some 0x2B)).fault.opcode = some 0x2B ∧
    ((onStack []).raise .stackUnderflow (some 0x2B)).fault.kind = some .stackUnderflow ∧
    ((onStack []).raise .stackUnderflow (some 0x2B)).fault.valid = true ∧
    FaultRecord.clear.opcode = none ∧ FaultRecord.clear.kind = none ∧ FaultRecord.clear.valid = false := by decide

theorem witness_HostFeedsStartPrograms :
    small.codeCap.admits [0x31, 0x70, (0x21 : Byte)].length = true ∧
    ∀ terminated : Bool,
      let s : State := { State.resetWith small with host := interactiveFeed terminated [[0x31, 0x70], []] }
      s.status = .haltedEndOfCode ∧
        s.cfg.codeCap.admits (s.code.length + [0x31, (0x70 : Byte)].length + (if terminated then 1 else 0)) = true := by
  decide

theorem witness_StackPrimitives :
    (onStack []).os = [] ∧ (onStack [7, 8]).os = 7 :: [8] ∧ (onStack []).cfg.osDepth = .unbounded ∧
    (bounded [1, 2] []).cfg.osDepth = .finite 2 ∧ (bounded [1, 2] []).os.length = 2 ∧
    (bounded [1] []).os.length ≠ 2 ∧ (onStack []).cfg.csDepth = .unbounded ∧
    (bounded [] [1]).cfg.csDepth = .finite 1 ∧ (bounded [] [1]).cs.length = 1 ∧ (bounded [] []).cs.length ≠ 1 ∧
    (bounded [] []).cs = [] ∧ (bounded [] [1]).cs = 1 :: [] := by decide

theorem witness_DigitsPushTheirValue :
    (onStack []).cfg.osDepth = .unbounded ∧ (bounded [1] []).cfg.osDepth = .finite 2 ∧
    (bounded [1] []).os.length < 2 ∧ (bounded [1, 2] []).os.length = 2 := by decide

theorem witness_AddRule :
    ((bounded [4, 3] []).os = 4 :: 3 :: [] ∧ (bounded [4, 3] []).osFits) ∧ (bounded [] []).os = [] ∧
    (bounded [5] []).os = [5] := ⟨⟨rfl, rfl⟩, rfl, rfl⟩

theorem witness_SubRule :
    ((bounded [3, 4] []).os = 3 :: 4 :: [] ∧ (bounded [3, 4] []).osFits) ∧ (bounded [] []).os = [] ∧
    (bounded [5] []).os = [5] := ⟨⟨rfl, rfl⟩, rfl, rfl⟩

theorem witness_MulRule :
    ((bounded [7, 6] []).os = 7 :: 6 :: [] ∧ (bounded [7, 6] []).osFits) ∧ (bounded [] []).os = [] ∧
    (bounded [5] []).os = [5] := ⟨⟨rfl, rfl⟩, rfl, rfl⟩

/-- The exact result is in int64 for `[4, 3]` and outside it for the sum of VS4. -/
theorem witness_ArithmeticIsExactModulo64 :
    ((bounded [4, 3] []).os = 4 :: 3 :: [] ∧ (bounded [4, 3] []).osFits) ∧
    (-(2 ^ 63) ≤ (3 : Word).toInt + (4 : Word).toInt ∧ (3 : Word).toInt + (4 : Word).toInt < 2 ^ 63) ∧
    ¬((9223372036854775807 : Word).toInt + (1 : Word).toInt < 2 ^ 63) := ⟨⟨rfl, rfl⟩, by decide, by decide⟩

theorem witness_DivRule :
    ((bounded [2, 7] []).os = 2 :: 7 :: [] ∧ (2 : Word) ≠ 0 ∧ (bounded [2, 7] []).osFits) ∧
    (bounded [0, 5] []).os = 0 :: 5 :: [] ∧ (bounded [] []).os = [] ∧ (bounded [0] []).os = [0] :=
  ⟨⟨rfl, by decide, rfl⟩, rfl, rfl, rfl⟩

theorem witness_QuotientTruncatesTowardZero :
    (bounded [0, 5] []).os = 0 :: 5 :: [] ∧
    ((bounded [-1, -9223372036854775808] []).os = -1 :: -9223372036854775808 :: [] ∧ (-1 : Word) ≠ 0 ∧
      (bounded [-1, -9223372036854775808] []).osFits ∧ (-9223372036854775808 : Word).toInt = -(2 ^ 63) ∧
      (-1 : Word).toInt = -1) ∧
    ((bounded [2, -7] []).os = 2 :: -7 :: [] ∧ (2 : Word) ≠ 0 ∧ (bounded [2, -7] []).osFits ∧ (-7 : Word).toInt ≤ 0 ∧
      ¬((-7 : Word).toInt = -(2 ^ 63) ∧ (2 : Word).toInt = -1)) ∧
    0 ≤ (0 : Word).toInt :=
  ⟨rfl, ⟨rfl, by decide, rfl, by decide, by decide⟩, ⟨rfl, by decide, rfl, by decide, by decide⟩, by decide⟩

theorem witness_CmpRule :
    ((bounded [4, 3] []).os = 4 :: 3 :: [] ∧ (bounded [4, 3] []).osFits ∧ (3 : Word).toInt < (4 : Word).toInt) ∧
    ((bounded [3, 3] []).os = 3 :: 3 :: [] ∧ (bounded [3, 3] []).osFits) ∧
    ((bounded [-1, 1] []).os = -1 :: 1 :: [] ∧ (bounded [-1, 1] []).osFits ∧ (-1 : Word).toInt < (1 : Word).toInt) ∧
    (bounded [] []).os = [] ∧ (bounded [5] []).os = [5] :=
  ⟨⟨rfl, rfl, by decide⟩, ⟨rfl, rfl⟩, ⟨rfl, rfl, by decide⟩, rfl, rfl⟩

theorem witness_DropRule : (onStack [5, 9]).os = 5 :: [9] ∧ (onStack []).os = [] := ⟨rfl, rfl⟩

/-- Indices 0 and |OS| - 1 are accepted, -1 and |OS| are not. -/
theorem witness_PickRule :
    ((onStack [0, 30, 20]).os = 0 :: [30, 20] ∧ 0 ≤ (0 : Word).toInt ∧
      ([30, 20] : List Word)[(0 : Word).toNat]? = some 30 ∧ (onStack [0, 30, 20]).osFits) ∧
    ((onStack [1, 30, 20]).os = 1 :: [30, 20] ∧ 0 ≤ (1 : Word).toInt ∧
      ([30, 20] : List Word)[(1 : Word).toNat]? = some 20 ∧ (onStack [1, 30, 20]).osFits) ∧
    ((onStack [-1, 30]).os = -1 :: [30] ∧ (-1 : Word).toInt < 0) ∧
    ((onStack [1, 30]).os = 1 :: [30] ∧ (([30] : List Word).length : Int) ≤ (1 : Word).toInt) ∧
    (onStack []).os = [] :=
  ⟨⟨rfl, by decide, rfl, rfl⟩, ⟨rfl, by decide, rfl, rfl⟩, ⟨rfl, by decide⟩, ⟨rfl, by decide⟩, rfl⟩

theorem witness_RollRule :
    ((onStack [2, 30, 20, 10]).os = 2 :: ([30, 20] ++ 10 :: []) ∧
      (2 : Word).toInt = (([30, 20] : List Word).length : Int) ∧ (onStack [2, 30, 20, 10]).osFits) ∧
    ((onStack [0, 5]).os = 0 :: ([] ++ 5 :: []) ∧ (0 : Word).toInt = (([] : List Word).length : Int)) ∧
    ((onStack [-1, 30]).os = -1 :: [30] ∧ (-1 : Word).toInt < 0) ∧
    ((onStack [1, 30]).os = 1 :: [30] ∧ (([30] : List Word).length : Int) ≤ (1 : Word).toInt) ∧
    (onStack []).os = [] :=
  ⟨⟨rfl, by decide, rfl⟩, ⟨rfl, by decide⟩, ⟨rfl, by decide⟩, ⟨rfl, by decide⟩, rfl⟩

/-- Addresses 0 and 16383 are cells, -1 and 16384 are not. -/
theorem witness_PeekRule :
    ((onStack [0]).os = 0 :: [] ∧ 0 ≤ (0 : Word).toInt ∧ (0 : Word).toInt < 16384 ∧ (onStack [0]).osFits) ∧
    ((onStack [16383]).os = 16383 :: [] ∧ 0 ≤ (16383 : Word).toInt ∧ (16383 : Word).toInt < 16384) ∧
    ((onStack [-1]).os = -1 :: [] ∧ (-1 : Word).toInt < 0) ∧
    ((onStack [16384]).os = 16384 :: [] ∧ 16384 ≤ (16384 : Word).toInt) ∧ (onStack []).os = [] :=
  ⟨⟨rfl, by decide, by decide, rfl⟩, ⟨rfl, by decide, by decide⟩, ⟨rfl, by decide⟩, ⟨rfl, by decide⟩, rfl⟩

theorem witness_PokeRule :
    ((onStack [0, 7]).os = 0 :: 7 :: [] ∧ 0 ≤ (0 : Word).toInt ∧ (0 : Word).toInt < 16384) ∧
    ((onStack [16383, 7]).os = 16383 :: 7 :: [] ∧ 0 ≤ (16383 : Word).toInt ∧ (16383 : Word).toInt < 16384) ∧
    ((onStack [-1, 7]).os = -1 :: 7 :: [] ∧ (-1 : Word).toInt < 0) ∧
    ((onStack [16384, 7]).os = 16384 :: 7 :: [] ∧ 16384 ≤ (16384 : Word).toInt) ∧
    (onStack []).os = [] ∧ (onStack [16384]).os = [16384] :=
  ⟨⟨rfl, by decide, by decide⟩, ⟨rfl, by decide, by decide⟩, ⟨rfl, by decide⟩, ⟨rfl, by decide⟩, rfl, rfl⟩

/-- One witness reads the poked cell, one another cell. -/
theorem witness_PeekAfterPoke :
    (onStack [7, 9, 7]).os = 7 :: 9 :: 7 :: [] ∧ (onStack [7, 9, 16383]).os = 7 :: 9 :: 16383 :: [] ∧
    0 ≤ (7 : Word).toInt ∧ (7 : Word).toInt < 16384 ∧ 0 ≤ (16383 : Word).toInt ∧ (16383 : Word).toInt < 16384 ∧
    (onStack [7, 9, 7]).osFits ∧ (onStack [7, 9, 16383]).osFits :=
  ⟨rfl, rfl, by decide, by decide, by decide, by decide, rfl, rfl⟩

theorem witness_MemoryCellLaws : (16383 : Nat) ≠ 0 := by decide

theorem witness_MemoryIsCanonical :
    Memory.wf [(0, 1), (16383, -8)] ∧ 16383 < memCells ∧
    ∀ k, Memory.read [(0, 1), (16383, -8)] k = Memory.read [(0, 1), (16383, -8)] k :=
  ⟨by decide, by decide, fun _ => rfl⟩

theorem witness_GotoRule : (onStack [-4, 1]).os = -4 :: [1] ∧ (onStack []).os = [] := ⟨rfl, rfl⟩

theorem witness_BrzRule :
    ((onStack [3, 0]).os = 3 :: 0 :: [] ∧ (0 : Word) = 0) ∧ ((onStack [3, -1]).os = 3 :: -1 :: [] ∧ (-1 : Word) ≠ 0) ∧
    (onStack []).os = [] ∧ (onStack [3]).os = [3] := ⟨⟨rfl, rfl⟩, ⟨rfl, by decide⟩, rfl, rfl⟩

theorem witness_CallRule :
    ((onStack [4]).os = 4 :: [] ∧ (onStack [4]).cfg.csDepth = .unbounded) ∧
    ((bounded [4] []).os = 4 :: [] ∧ ∃ d, (bounded [4] []).cfg.csDepth = .finite d ∧ (bounded [4] []).cs.length < d) ∧
    ((bounded [4] [2]).cfg.csDepth = .finite 1 ∧ (bounded [4] [2]).cs.length = 1) ∧
    ((onStack []).os = [] ∧ (onStack []).cfg.csDepth = .unbounded) :=
  ⟨⟨rfl, rfl⟩, ⟨rfl, 1, rfl, by decide⟩, ⟨rfl, rfl⟩, ⟨rfl, rfl⟩⟩

theorem witness_RetRule : (bounded [] [2]).cs = 2 :: [] ∧ (bounded [] []).cs = [] := ⟨rfl, rfl⟩

theorem witness_NopRule :
    (0x20 : Byte) ∉ opcodeBytes ∧
    let s := onCode [0x20, 0x0A]
    s.status = .running ∧ 0 ≤ s.pc.toInt ∧ s.pc.toInt + (2 : Nat) < 2 ^ 63 ∧
      ∀ j < 2, ∃ b, s.code[s.pc.toNat + j]? = some b ∧ b ∉ opcodeBytes :=
  ⟨by decide, by decide, by decide, by decide, fun j hj => by
    rcases j with _ | _ | j
    · exact ⟨0x20, by decide, by decide⟩
    · exact ⟨0x0A, by decide, by decide⟩
    · omega⟩

theorem witness_PrintRule : (onStack [-5]).os = -5 :: [] ∧ (onStack []).os = [] := ⟨rfl, rfl⟩

theorem witness_DecimalTextIsExact : (-5 : Word).toInt < 0 ∧ (dec 0).head? = some 0x30 := by decide

theorem witness_PutcRule : (onStack [321]).os = 321 :: [] ∧ (onStack []).os = [] := ⟨rfl, rfl⟩

theorem witness_MemoryFrame :
    (Instr.add ≠ .poke ∧ ∃ t, exec .add (onStack [4, 3]) = .next t) ∧
    (∃ t, exec .poke (onStack [100, 42]) = .next t) ∧
    ((onStack [100, 42]).os = 100 :: 42 :: [] ∧ 0 ≤ (100 : Word).toInt ∧ (100 : Word).toInt < memCells) ∧
    ((onStack [16384, 1]).os = 16384 :: 1 :: [] ∧ ¬(0 ≤ (16384 : Word).toInt ∧ (16384 : Word).toInt < memCells)) ∧
    (onStack [16384]).os.length < 2 :=
  ⟨⟨by decide, _, rfl⟩, ⟨_, rfl⟩, ⟨rfl, by decide, by decide⟩, ⟨rfl, by decide⟩, by decide⟩

theorem witness_PCAndCallStackFrame :
    (Instr.add ∉ [Instr.goto, .brz, .call, .ret] ∧ ∃ t, exec .add (onStack [4, 3]) = .next t) ∧
    (∃ t, exec .ret (bounded [] [2]) = .next t) ∧ (∃ t, exec .call (bounded [4] []) = .next t) :=
  ⟨⟨by decide, _, rfl⟩, ⟨_, rfl⟩, ⟨_, rfl⟩⟩

/-- One instruction of each group, none of them faulting. -/
theorem witness_OperandStackFrame :
    seen State.status .push9 (onStack []) = some .running ∧ seen State.status .div (onStack [2, 7]) = some .running ∧
    seen State.status .pick (onStack [0, 7]) = some .running ∧ seen State.status .peek (onStack [0]) = some .running ∧
    seen State.status .call (onStack [0]) = some .running ∧ seen State.status .poke (onStack [0, 7]) = some .running ∧
    seen State.status .exit (onStack [0]) = some .haltedByExit ∧
    seen State.status (.nop 0) (onStack []) = some .running := by decide

theorem witness_OutputFrame :
    (Instr.add ∉ [Instr.print, .putc] ∧ ∃ t, exec .add (onStack [4, 3]) = .next t) ∧
    ∃ t, exec .print (onStack [7]) = .next t := ⟨⟨by decide, _, rfl⟩, ⟨_, rfl⟩⟩

/-- The three outcomes. -/
theorem witness_StatusAndFaultFrame :
    ((onStack [4, 3]).osFits ∧ ∃ t, exec .add (onStack [4, 3]) = .next t ∧ t.status = .running) ∧
    ((onStack []).osFits ∧ ∃ t, exec .exit (onStack []) = .next t) ∧
    ((onStack []).osFits ∧ ∃ t, exec .div (onStack []) = .next t ∧ t.status = .faultedFatal) :=
  ⟨⟨rfl, _, rfl, rfl⟩, ⟨rfl, _, rfl⟩, ⟨rfl, _, rfl, rfl⟩⟩

theorem witness_CodeIsAppendOnly :
    (∃ t, exec .poke (onStack [100, 42]) = .next t) ∧
    ((onCode [0x20]).status = .running ∧ ∃ t, step (onCode [0x20]) = .next t) ∧
    (∃ t, step { State.reset with host := [.append [0x21]] } = .next t ∧ t.code = [0x21]) :=
  ⟨⟨_, rfl⟩, ⟨rfl, _, rfl⟩, ⟨_, rfl, rfl⟩⟩

theorem witness_CallStackIsInvisible :
    Instr.roll ≠ .call ∧ Instr.roll ≠ .ret ∧ ∃ t, exec .roll (bounded [0, 7] [2]) = .next t :=
  ⟨by decide, by decide, _, rfl⟩

theorem witness_MemoryAndCodeAreInvisible :
    Instr.sub ≠ .peek ∧ Instr.sub ≠ .poke ∧ ∃ t, exec .sub { onStack [4, 3] with mem := [(5, 1)] } = .next t :=
  ⟨by decide, by decide, _, rfl⟩

/-- Each of the three outcomes occurs, from statuses and records that differ. -/
theorem witness_ControlStateIsInvisible :
    (∃ t : State, ∀ st f, exec .mul { onStack [7, 6] with status := st, fault := f } =
      .next { t with status := st, fault := f }) ∧
    (∃ t : State, ∀ st f, exec .exit { onStack [] with status := st, fault := f } =
      .next { t with status := .haltedByExit, fault := f }) ∧
    (∃ (t : State) (raised : FaultRecord), raised.valid = true ∧
      ∀ st f, exec .drop { onStack [] with status := st, fault := f } =
        .next { t with status := .faultedFatal, fault := raised }) :=
  ⟨⟨onStack [42], fun _ _ => rfl⟩, ⟨onStack [], fun _ _ => rfl⟩,
    ⟨onStack [], ((onStack []).raise .stackUnderflow (some 0x64)).fault, rfl, fun _ _ => rfl⟩⟩

/-- A state with every part of the invariant in play. -/
def full : State :=
  { bounded [100, 42] [2] with code := [0x20, 0x63, 0x3E], pc := 2, mem := [(5, 1), (16383, -8)] }

theorem witness_StepKeepsInvariant : full.Inv ∧ ∃ t, step full = .next t ∧ t.mem = [(5, 1), (100, 42), (16383, -8)] :=
  ⟨⟨by decide, rfl, rfl, rfl, fun _ => rfl, fun h => by cases h⟩, _, rfl, by decide⟩

theorem witness_SavedPCsArePositive :
    (full.code.length < 2 ^ 63 ∧ full.returnsPositive ∧ ∃ t, step full = .next t) ∧
    (full.cs ≠ [] ∧ ∃ t, exec .ret full = .next t) :=
  ⟨⟨by decide, fun r hr => by simp [full, bounded] at hr; subst hr; decide, _, rfl⟩, by decide, _, rfl⟩

/-- The three ways execution stops. -/
theorem witness_ExecutionStopsThreeWays :
    seenStep State.status (onCode []) = some .haltedEndOfCode ∧
    seenStep State.status (onCode [0x21]) = some .haltedByExit ∧
    seenStep State.status (onCode [0x2B]) = some .faultedFatal ∧ (onCode [0x21]).status = .running := by decide

theorem no_capacity_fault {s : State} (h : s.fault = .clear) : ¬s.capacityFault := by
  rintro ⟨k, hk, _⟩
  rw [h] at hk
  cases hk

theorem witness_UnboundedNeverOverflows :
    (onCode [0x37]).cfg = .reference ∧ ¬(onCode [0x37]).capacityFault ∧ ∃ t, step (onCode [0x37]) = .next t :=
  ⟨rfl, no_capacity_fault rfl, _, rfl⟩

theorem witness_BoundedRunMatchesReference :
    full.Inv ∧ ∃ t, runSteps 2 full = .next t ∧ ¬t.capacityFault ∧ t.status = .haltedEndOfCode :=
  ⟨witness_StepKeepsInvariant.1, _, rfl, no_capacity_fault rfl, rfl⟩

end Sys2Proof.Tests
end

/-! ## The host's actions, the session-terminal statuses and the stack primitives (10_state.md)

SUPPORT. What `Append` and `Run` do in each status, what a session-terminal status keeps, and the two stacks' primitives
against the depths as the specification names them. -/

namespace Sys2Proof.Machine

/-! ### `Append` and `Run` -/

/-- `Append` outside `HaltedEndOfCode` (10_state.md R26). -/
theorem State.hostAppend_of_ne {s : State} (h : s.status ≠ .haltedEndOfCode) (bytes : List Byte) :
    s.hostAppend bytes = s := by
  cases hs : s.status with
  | haltedEndOfCode => exact absurd hs h
  | running | haltedByExit | faultedFatal => simp [State.hostAppend, hs]

theorem State.hostAppend_room {s : State} (h : s.status = .haltedEndOfCode) {bytes : List Byte}
    (room : s.cfg.codeCap.admits (s.code.length + bytes.length) = true) :
    s.hostAppend bytes = { s with code := s.code ++ bytes } := by simp [State.hostAppend, h, room]

theorem State.hostAppend_overflow {s : State} (h : s.status = .haltedEndOfCode) {bytes : List Byte}
    (tooLong : s.cfg.codeCap.admits (s.code.length + bytes.length) = false) :
    s.hostAppend bytes = s.raise .codeBufferOverflow none := by simp [State.hostAppend, h, tooLong]

/-- `Run` in `HaltedEndOfCode` (10_state.md R27). -/
theorem State.hostRun_halted {s : State} (h : s.status = .haltedEndOfCode) :
    s.hostRun = { s with status := .running } := by simp [State.hostRun, h]

/-- `Run` outside `HaltedEndOfCode` (10_state.md R27). -/
theorem State.hostRun_of_ne {s : State} (h : s.status ≠ .haltedEndOfCode) : s.hostRun = s := by
  cases hs : s.status with
  | haltedEndOfCode => exact absurd hs h
  | running | haltedByExit | faultedFatal => simp [State.hostRun, hs]

/-- The end of an invocation undoes the `Run` that began it. -/
theorem State.haltEndOfCode_hostRun {s : State} (h : s.status = .haltedEndOfCode) :
    s.hostRun.haltEndOfCode = s := by
  rw [hostRun_halted h]
  unfold State.haltEndOfCode
  rw [← h]

/-! ### The session-terminal statuses -/

theorem Status.sessionOver_iff (st : Status) :
    st.sessionOver = true ↔ st = .haltedByExit ∨ st = .faultedFatal := by
  cases st <;> simp [Status.sessionOver]

theorem Status.ne_running_of_sessionOver {st : Status} (h : st.sessionOver = true) : st ≠ .running := by
  rintro rfl
  cases h

theorem Status.ne_haltedEndOfCode_of_sessionOver {st : Status} (h : st.sessionOver = true) :
    st ≠ .haltedEndOfCode := by
  rintro rfl
  cases h

/-- No action of the host has an effect once the session is over (10_state.md R20). -/
theorem State.hostAct_of_sessionOver {s : State} (h : s.status.sessionOver = true) (a : HostAction) :
    s.hostAct a = s := by
  have ne := Status.ne_haltedEndOfCode_of_sessionOver h
  cases a with
  | append bytes => exact hostAppend_of_ne ne bytes
  | run => exact hostRun_of_ne ne

theorem State.hostTurn_nil {s : State} (h : s.host = []) : s.hostTurn = s := by simp [State.hostTurn, h]

theorem State.hostTurn_cons {s : State} {a : HostAction} {later : List HostAction} (h : s.host = a :: later) :
    s.hostTurn = State.hostAct { s with host := later } a := by simp [State.hostTurn, h]

/-- Once the session is over, a step only takes the oldest pending action off the host's queue. -/
theorem step_of_sessionOver {s : State} (h : s.status.sessionOver = true) :
    step s = .next { s with host := s.host.tail } := by
  rw [step_idle (Status.ne_running_of_sessionOver h)]
  cases hh : s.host with
  | nil => rw [State.hostTurn_nil hh, List.tail_nil, ← hh]
  | cons a later =>
    rw [State.hostTurn_cons hh, List.tail_cons, State.hostAct_of_sessionOver (s := { s with host := later }) h]

/-- Once the session is over, `k` steps only take the `k` oldest pending actions off the host's queue. -/
theorem runSteps_of_sessionOver {s : State} (h : s.status.sessionOver = true) (k : Nat) :
    runSteps k s = .next { s with host := s.host.drop k } := by
  induction k generalizing s with
  | zero => rfl
  | succ k ih =>
    have rest : runSteps k { s with host := s.host.tail } = .next { s with host := s.host.tail.drop k } := ih h
    rw [runSteps_succ k (step_of_sessionOver h), rest, List.drop_tail]

/-! ### The operand stack and the call stack against their depths (00_scope.md R4) -/

section
variable {s : State}

theorem State.push_unbounded (h : s.cfg.osDepth = .unbounded) (o : Byte) (v : Word) :
    s.push o v = { s with os := v :: s.os } := push_room (by simp [h]) o v

theorem State.push_at_depth {d : Nat} (h : s.cfg.osDepth = .finite d) (hd : s.os.length = d) (o : Byte) (v : Word) :
    s.push o v = s.raise .operandStackOverflow (some o) := push_full (by simp [h, hd]) o v

theorem State.push_off_depth {d : Nat} (h : s.cfg.osDepth = .finite d) (hd : s.os.length ≠ d) (o : Byte) (v : Word) :
    s.push o v = { s with os := v :: s.os } := push_room (by simp [h, hd]) o v

theorem State.cpush_unbounded (h : s.cfg.csDepth = .unbounded) (o : Byte) (v : Word) (k : State → State) :
    s.cpush o v k = k { s with cs := v :: s.cs } := cpush_room (by simp [h]) o v k

theorem State.cpush_at_depth {d : Nat} (h : s.cfg.csDepth = .finite d) (hd : s.cs.length = d) (o : Byte) (v : Word)
    (k : State → State) : s.cpush o v k = s.raise .callStackOverflow (some o) := cpush_full (by simp [h, hd]) o v k

theorem State.cpush_off_depth {d : Nat} (h : s.cfg.csDepth = .finite d) (hd : s.cs.length ≠ d) (o : Byte) (v : Word)
    (k : State → State) : s.cpush o v k = k { s with cs := v :: s.cs } := cpush_room (by simp [h, hd]) o v k

end

/-! ### The statements of 10_state.md -/

/-- Settles O15, by the exact law of a run after the session's end (`runSteps_of_sessionOver`, an induction over the
number of steps): only the host's queue changes, and it is no state element of R8. -/
theorem terminalStatusesAreFinal : Obligations.TerminalStatusesAreFinal :=
  ⟨fun _ k h => ⟨_, runSteps_of_sessionOver h k, rfl, rfl, rfl, rfl, rfl, rfl, rfl, rfl⟩,
    fun _ a h => State.hostAct_of_sessionOver h a,
    fun _ h => by rw [State.hostRun_halted h],
    Status.sessionOver_iff⟩

/-- Settles O13, one law of `Append` for each clause. -/
theorem appendRule : Obligations.AppendRule := by
  intro s bytes
  refine ⟨fun h => State.hostAppend_of_ne h bytes, fun h => State.hostAppend_room h, fun h cap hcap hlt => ?_⟩
  have tooLong : s.cfg.codeCap.admits (s.code.length + bytes.length) = false := by
    rw [hcap, Capacity.admits_finite]
    exact decide_eq_false (not_le.mpr hlt)
  exact State.hostAppend_overflow h tooLong

/-- Settles O14: with no code at the PC, the step after `Run` ends the invocation, which gives back the state before
`Run`. -/
theorem runRule : Obligations.RunRule := by
  intro s
  refine ⟨State.hostRun_halted, State.hostRun_of_ne, fun h hpc hlen => ?_⟩
  have halts : step s.hostRun = .next s.hostRun.haltEndOfCode := by
    rw [State.hostRun_halted h]
    exact step_end rfl hpc hlen
  rw [halts, State.haltEndOfCode_hostRun h]

/-- Settles O16, status by status. -/
theorem exitCodeRule : Obligations.ExitCodeRule := by
  intro s
  cases hs : s.status with
  | faultedFatal => simp [State.exitCode, hs]
  | running | haltedEndOfCode | haltedByExit => simp [State.exitCode, hs]

/-- Settles O20, one law of a stack primitive for each clause. -/
theorem stackPrimitives : Obligations.StackPrimitives := by
  intro s o v below k r
  exact
    ⟨fun h => State.pop_nil h o k,
      fun h => State.pop_cons h o k,
      fun h => State.push_unbounded h o v,
      fun _ h hd => State.push_at_depth h hd o v,
      fun _ h hd => State.push_off_depth h hd o v,
      fun h => State.cpush_unbounded h o v r,
      fun _ h hd => State.cpush_at_depth h hd o v r,
      fun _ h hd => State.cpush_off_depth h hd o v r,
      fun h => State.cpop_nil h o k,
      fun h => State.cpop_cons h o k,
      fun kind => ⟨s.raise_os kind (some o), s.raise_cs kind (some o)⟩⟩

end Sys2Proof.Machine

/-! ## Data memory (20_memory.md)

SUPPORT. A write depends on the other cells only, so it hides an earlier write to the same cell. No canonical form is
assumed. -/

namespace Sys2Proof.Machine

/-! ### A write over an earlier write to the same cell -/

@[simp] theorem Memory.erase_erase (m : Memory) (a : Nat) : (m.erase a).erase a = m.erase a := by
  simp [Memory.erase]

/-- Erasing a cell removes the entry that `insert` has placed for it. -/
@[simp] theorem Memory.erase_insert (m : Memory) (a : Nat) (v : Word) : (m.insert a v).erase a = m.erase a := by
  induction m with
  | nil => simp [Memory.insert, Memory.erase]
  | cons c m ih =>
    obtain ⟨k, w⟩ := c
    unfold Memory.insert
    split
    · simp [Memory.erase]
    · simp only [Memory.erase, List.filter_cons] at ih ⊢
      rw [ih]

@[simp] theorem Memory.erase_write (m : Memory) (a : Nat) (v : Word) : (m.write a v).erase a = m.erase a := by
  unfold Memory.write
  split
  · exact m.erase_erase a
  · rw [Memory.erase_insert, Memory.erase_erase]

/-- A write to cell `a` uses the memory without its entry for `a` only. -/
theorem Memory.write_congr_erase {m m' : Memory} {a : Nat} (h : m.erase a = m'.erase a) (v : Word) :
    m.write a v = m'.write a v := by
  unfold Memory.write
  rw [h]

/-- The later of two writes to one cell is the one that counts (20_memory.md R34). -/
@[simp] theorem Memory.write_write (m : Memory) (a : Nat) (v w : Word) : (m.write a w).write a v = m.write a v :=
  Memory.write_congr_erase (m.erase_write a w) v

/-! ### The statement of 20_memory.md -/

/-- Settles O35: the reads by the laws of a read after a write, the repeated write and the overriding one both by
`Memory.write_write`. -/
theorem memoryCellLaws : Obligations.MemoryCellLaws :=
  ⟨Memory.read_nil, fun m a v w =>
    ⟨m.read_write_same a v, fun _ h => m.read_write_other v h, m.write_write a v v, m.write_write a v w⟩⟩

end Sys2Proof.Machine

/-! ## The opcode map (30_encoding.md)

SUPPORT. The rows of the map and the number of its bytes are closed facts; that a byte is a no-op follows from its
absence among the opcode bytes. -/

namespace Sys2Proof

/-- The opcodes `c`, `d`, `g`, `v` are lower-case only: their capitals are not assigned (30_encoding.md R49). -/
theorem capitals_not_mem_opcodeBytes : ∀ b ∈ ([0x43, 0x44, 0x47, 0x56] : List Byte), b ∉ opcodeBytes := by decide

/-- Settles O1: the map's rows and its count of distinct bytes by evaluation, the other bytes, the capitals among
them, by `decodeByte_of_not_mem`. -/
theorem opcodeBytesDecode : Obligations.OpcodeBytesDecode := by
  refine ⟨?rows, fun _ => decodeByte_of_not_mem, rfl, ?distinct, ?capitals⟩
  case rows => decide
  case distinct => decide
  case capitals =>
    exact List.all_eq_true.mpr fun b hb =>
      beq_iff_eq.mpr (decodeByte_of_not_mem (capitals_not_mem_opcodeBytes b hb))

end Sys2Proof

/-! ## The run cycle (40_dispatch.md)

SUPPORT. The advance as the addition of 1 to the PC, and what a step and a run of steps do over the bytes they fetch. -/

namespace Sys2Proof.Machine

/-! ### The advance -/

theorem add_one_eq_ofInt (v : Word) : v + 1 = BitVec.ofInt 64 (v.toInt + 1) := by
  rw [BitVec.ofInt_add, BitVec.ofInt_toInt]
  rfl

theorem toInt_add_one {v : Word} (h : v.toInt + 1 < 2 ^ 63) : (v + 1).toInt = v.toInt + 1 := by
  have lo : -(2 ^ 63) ≤ v.toInt := BitVec.le_toInt v
  rw [add_one_eq_ofInt]
  exact toInt_ofInt_of_range (by omega) h

/-- The advance inside int64, as the addition of words (40_dispatch.md R56). -/
theorem State.advance_eq_add_one {s : State} (h : s.pc.toInt + 1 < 2 ^ 63) : s.advance = { s with pc := s.pc + 1 } := by
  rw [State.advance_eq h, ← add_one_eq_ofInt]

/-- A byte is fetched below the end of the code only. -/
theorem State.pc_lt_length {s : State} {o : Byte} (h : 0 ≤ s.pc.toInt) (ho : s.code[s.pc.toNat]? = some o) :
    s.pc.toInt < s.code.length := by
  rw [← toNat_of_toInt_nonneg h]
  exact_mod_cast (List.getElem?_eq_some_iff.mp ho).1

/-! ### One step over a byte, and a run over no-ops -/

/-- The cycle fetch, advance, execute, where the advance stays in int64 (40_dispatch.md R52). -/
theorem step_eq_exec {s : State} {o : Byte} (hr : s.status = .running) (h : 0 ≤ s.pc.toInt)
    (hi : s.pc.toInt + 1 < 2 ^ 63) (ho : s.code[s.pc.toNat]? = some o) :
    step s = exec (decodeByte o) { s with pc := s.pc + 1 } := by
  rw [step_opcode hr h ho, State.advance_eq_add_one hi]

theorem exec_nop (b : Byte) (s : State) : exec (.nop b) s = .next s := rfl

theorem step_nop {s : State} {o : Byte} (hr : s.status = .running) (h : 0 ≤ s.pc.toInt)
    (hi : s.pc.toInt + 1 < 2 ^ 63) (ho : s.code[s.pc.toNat]? = some o) (nop : o ∉ opcodeBytes) :
    step s = .next { s with pc := s.pc + 1 } := by
  rw [step_eq_exec hr h hi ho, decodeByte_of_not_mem nop, exec_nop]

/-- A run over `k` no-ops moves the PC by `k` (40_dispatch.md R58). -/
theorem runSteps_nops (k : Nat) {s : State} (hr : s.status = .running) (h : 0 ≤ s.pc.toInt)
    (hi : s.pc.toInt + k < 2 ^ 63) (nops : ∀ j < k, ∃ b, s.code[s.pc.toNat + j]? = some b ∧ b ∉ opcodeBytes) :
    runSteps k s = .next { s with pc := BitVec.ofInt 64 (s.pc.toInt + k) } := by
  induction k generalizing s with
  | zero => simp
  | succ k ih =>
    obtain ⟨b, hb, hnop⟩ := nops 0 k.succ_pos
    have hpc : (s.pc + 1).toInt = s.pc.toInt + 1 := toInt_add_one (by omega)
    have hn : (s.pc + 1).toNat = s.pc.toNat + 1 := by
      have := toNat_of_toInt_nonneg h
      have := toNat_of_toInt_nonneg (a := s.pc + 1) (by omega)
      omega
    have later : ∀ j < k, ∃ b, s.code[(s.pc + 1).toNat + j]? = some b ∧ b ∉ opcodeBytes := fun j hj => by
      rw [hn, Nat.add_right_comm]
      exact nops (j + 1) (Nat.succ_lt_succ hj)
    have rest := ih (s := { s with pc := s.pc + 1 }) hr (by simp only [hpc]; omega) (by simp only [hpc]; omega) later
    rw [runSteps_succ k (step_nop hr h (by omega) hb hnop), rest, hpc, add_assoc, add_comm 1, Nat.cast_succ]

/-! ### The statements of 40_dispatch.md -/

/-- Settles O42: one no-op by its decoding and `exec_nop`, a run of them by `runSteps_nops`, an induction over the
number of bytes. -/
theorem nopRule : Obligations.NopRule :=
  ⟨fun b h => ⟨decodeByte_of_not_mem h, exec_nop b⟩, fun k _ => runSteps_nops k⟩

/-- Settles O5: the step raises the fault from the state the fetch began in. -/
theorem negativePCFaultsAtFetch : Obligations.NegativePCFaultsAtFetch := fun _ => step_negative

/-- Settles O6: the step by `step_end`; the host's two actions by their laws in `HaltedEndOfCode`, which give back the
status the state had. -/
theorem endOfCodeEndsInvocation : Obligations.EndOfCodeEndsInvocation := by
  intro s hr h hl
  refine ⟨step_end hr h hl, fun bytes room => ?_⟩
  rw [State.hostAppend_room (s := { s with status := .haltedEndOfCode }) rfl room, State.hostRun_halted rfl, ← hr]

/-- Settles O7: the fetched byte's index lies below `len < 2^63`, so the advance stays in int64. -/
theorem fetchThenAdvanceThenExecute : Obligations.FetchThenAdvanceThenExecute := by
  intro s o hr h ho hlen
  have hlt := State.pc_lt_length h ho
  have hi : s.pc.toInt + 1 < 2 ^ 63 := by omega
  exact ⟨toInt_add_one hi, step_eq_exec hr h hi ho⟩

end Sys2Proof.Machine

/-! ## The operand stack and the ALU (41_stack_alu.md)

SUPPORT. What a push after a pop, the binary form and each instruction of the chapter do, and the two facts of integer
arithmetic they rest on: `wrap64` is congruent to the exact result, and `DIV` rounds toward zero. -/

namespace Sys2Proof.Machine

open Sys2Proof.Laws

/-! ### The exact result and its int64 (R62) -/

/-- `wrap64` keeps the residue modulo 2^64. -/
theorem toInt_wrap64_emod (x : Int) : (wrap64 x).toInt % 2 ^ 64 = x % 2 ^ 64 := by
  rw [toInt_wrap64]
  exact Int.bmod_emod

/-- `wrap64` is the identity on int64. -/
theorem toInt_wrap64_of_range {x : Int} (lo : -(2 ^ 63) ≤ x) (hi : x < 2 ^ 63) : (wrap64 x).toInt = x :=
  toInt_ofInt_of_range lo hi

/-! ### The quotient rounded toward zero (R63) -/

theorem toInt_ne_zero {a : Word} (h : a ≠ 0) : a.toInt ≠ 0 := fun h0 => h (BitVec.eq_of_toInt_eq h0)

/-- What a truncated quotient leaves over. -/
theorem sub_tdiv_mul_eq_tmod (b a : Int) : b - b.tdiv a * a = b.tmod a := by rw [Int.tmod_def, mul_comm]

theorem natAbs_tmod_lt {a : Int} (b : Int) (ha : a ≠ 0) : (b.tmod a).natAbs < a.natAbs := by
  rw [Int.natAbs_tmod]
  exact Nat.mod_lt _ (Int.natAbs_pos.mpr ha)

theorem tmod_nonpos_of_nonpos {b : Int} (a : Int) (hb : b ≤ 0) : b.tmod a ≤ 0 := by
  have h := Int.tmod_nonneg a (neg_nonneg.mpr hb)
  rw [Int.neg_tmod] at h
  exact neg_nonneg.mp h

/-- A truncated quotient is negative exactly when the signs differ and it is not 0. -/
theorem tdiv_neg_iff {a : Int} (b : Int) (ha : a ≠ 0) :
    b.tdiv a < 0 ↔ (b < 0 ↔ 0 < a) ∧ b.tdiv a ≠ 0 := by
  rw [← Int.sign_eq_neg_one_iff_neg, ne_eq, ← Int.sign_eq_zero_iff_zero, Int.sign_tdiv]
  split
  · simp
  · have hb : b ≠ 0 := by omega
    rcases lt_or_gt_of_ne hb with hb | hb <;> rcases lt_or_gt_of_ne ha with ha | ha <;>
      simp [Int.sign_eq_one_of_pos, Int.sign_eq_neg_one_of_neg, hb, ha, not_lt_of_gt]

/-- The quotient of DIV is the signed division of words. -/
theorem aluDiv_eq_sdiv (b a : Word) : aluDiv b a = b.sdiv a := by
  refine BitVec.eq_of_toInt_eq ?_
  rw [aluDiv, truncDiv_eq_tdiv, toInt_wrap64, BitVec.toInt_sdiv]

/-- The one quotient outside int64 wraps (R63). -/
theorem toInt_aluDiv_overflow {b a : Word} (hb : b.toInt = -(2 ^ 63)) (ha : a.toInt = -1) :
    (aluDiv b a).toInt = -(2 ^ 63) := by
  rw [aluDiv, truncDiv_eq_tdiv, toInt_wrap64, hb, ha]
  decide

/-- Every other quotient is exact. -/
theorem toInt_aluDiv {b a : Word} (h : ¬(b.toInt = -(2 ^ 63) ∧ a.toInt = -1)) :
    (aluDiv b a).toInt = b.toInt.tdiv a.toInt := by
  rw [aluDiv_eq_sdiv]
  refine BitVec.toInt_sdiv_of_ne_or_ne b a (not_and_or.mp ?_)
  rintro ⟨rfl, rfl⟩
  exact h (by decide)

/-! ### The three-way comparison (R64) -/

theorem compareSigned_of_lt {b a : Word} (h : b.toInt < a.toInt) : compareSigned b a = -1 := if_pos h

theorem compareSigned_of_eq {b a : Word} (h : b.toInt = a.toInt) : compareSigned b a = 0 := by
  simp [compareSigned, h]

theorem compareSigned_of_gt {b a : Word} (h : a.toInt < b.toInt) : compareSigned b a = 1 := by
  simp [compareSigned, not_lt_of_gt h, h.ne']

/-! ### Pushes and the binary form -/

/-- A push onto what pops have left of a stack within its depth. -/
theorem State.push_popped {s : State} {below : List Word} (fits : s.osFits) (h : below.length < s.os.length)
    (o : Byte) (v : Word) : State.push { s with os := below } o v = { s with os := v :: below } :=
  State.push_room (s := { s with os := below }) (fits.room h) o v

/-- An instruction of the binary form replaces its operands by the result (R64, operand order). -/
theorem exec_binary_cons {i : Instr} {o : Byte} {op : Word → Word → Word}
    (meaning : ∀ s, exec i s = .next (s.binary o op)) (s : State) (a b : Word) (rest : List Word)
    (h : s.os = a :: b :: rest) (fits : s.osFits) : exec i s = .next { s with os := op b a :: rest } := by
  rw [meaning, State.binary, State.popTwo_cons h, State.push_popped fits (by simp [h])]

/-- The three outcomes of an instruction of the binary form. -/
theorem exec_binary {i : Instr} {o : Byte} {op : Word → Word → Word}
    (meaning : ∀ s, exec i s = .next (s.binary o op)) :
    (∀ (s : State) (a b : Word) (rest : List Word), s.os = a :: b :: rest → s.osFits →
      exec i s = .next { s with os := op b a :: rest }) ∧
    (∀ s : State, s.os = [] → exec i s = .next (s.raise .stackUnderflow (some o))) ∧
    (∀ (s : State) (a : Word), s.os = [a] →
      exec i s = .next (State.raise { s with os := [] } .stackUnderflow (some o))) := by
  refine ⟨exec_binary_cons meaning, fun s h => ?empty, fun s a h => ?single⟩
  case empty => rw [meaning, State.binary, State.popTwo_nil h]
  case single => rw [meaning, State.binary, State.popTwo_one h]

/-! ### The meanings of the instructions -/

theorem exec_add (s : State) : exec .add s = .next (s.binary 0x2B aluAdd) := rfl

theorem exec_sub (s : State) : exec .sub s = .next (s.binary 0x2D aluSub) := rfl

theorem exec_mul (s : State) : exec .mul s = .next (s.binary 0x2A aluMul) := rfl

theorem exec_cmp (s : State) : exec .cmp s = .next (s.binary 0x3A compareSigned) := rfl

theorem exec_div (s : State) : exec .div s = .next (s.popTwo 0x2F fun a b s =>
    if a.toInt = 0 then s.raise .divisionByZero (some 0x2F) else s.push 0x2F (aluDiv b a)) := rfl

theorem exec_drop (s : State) : exec .drop s = .next (s.pop 0x64 fun _ s => s) := rfl

theorem exec_pick (s : State) : exec .pick s = .next (s.pop 0x5E fun i s =>
    s.resolve 0x5E i fun _ v => s.push 0x5E v) := rfl

theorem exec_roll (s : State) : exec .roll s = .next (s.pop 0x76 fun i s =>
    s.resolve 0x76 i fun d v => State.push { s with os := s.os.eraseIdx d } 0x76 v) := rfl

/-- DIV by a divisor that is not 0. -/
theorem exec_div_of_ne_zero {s : State} {a b : Word} {rest : List Word} (h : s.os = a :: b :: rest) (ha : a ≠ 0)
    (fits : s.osFits) : exec .div s = .next { s with os := aluDiv b a :: rest } := by
  rw [exec_div, State.popTwo_cons h, if_neg (toInt_ne_zero ha), State.push_popped fits (by simp [h])]

/-- DIV by 0 faults with both operands gone. -/
theorem exec_div_zero {s : State} {b : Word} {rest : List Word} (h : s.os = 0 :: b :: rest) :
    exec .div s = .next (State.raise { s with os := rest } .divisionByZero (some 0x2F)) := by
  rw [exec_div, State.popTwo_cons h, if_pos (show (0 : Word).toInt = 0 from rfl)]

/-! ### The statements of 41_stack_alu.md -/

/-- Settles O25: each of the three results is `wrap64` of the exact one. -/
theorem arithmeticIsExactModulo64 : Obligations.ArithmeticIsExactModulo64 := by
  intro s a b rest h fits
  have exact_of_wrap64 {i : Instr} {x : Int} (hx : exec i s = .next { s with os := wrap64 x :: rest }) :
      ∃ r : Word, exec i s = .next { s with os := r :: rest } ∧ r.toInt % 2 ^ 64 = x % 2 ^ 64 ∧
        (-(2 ^ 63) ≤ x → x < 2 ^ 63 → r.toInt = x) :=
    ⟨wrap64 x, hx, toInt_wrap64_emod x, toInt_wrap64_of_range⟩
  simp only [List.forall_mem_cons, List.not_mem_nil, false_imp_iff, implies_true, and_true]
  exact ⟨exact_of_wrap64 (exec_binary_cons exec_add s a b rest h fits),
    exact_of_wrap64 (exec_binary_cons exec_sub s a b rest h fits),
    exact_of_wrap64 (exec_binary_cons exec_mul s a b rest h fits)⟩

/-- Settles O27: outside the overflow the quotient is the integers' truncated one, whose remainder is `Int.tmod`. -/
theorem quotientTruncatesTowardZero : Obligations.QuotientTruncatesTowardZero := by
  refine ⟨fun s b rest h => exec_div_zero h, fun s a b rest h ha fits => ?_⟩
  refine ⟨aluDiv b a, exec_div_of_ne_zero h ha fits, toInt_aluDiv_overflow, fun inRange => ?_⟩
  rw [toInt_aluDiv inRange, sub_tdiv_mul_eq_tmod]
  have ha := toInt_ne_zero ha
  exact ⟨natAbs_tmod_lt _ ha, Int.tmod_nonneg _, tmod_nonpos_of_nonpos _, tdiv_neg_iff _ ha⟩

/-- Settles O21: every row of the table decodes and pushes as it says, and the depth decides between the push and the
fault. -/
theorem digitsPushTheirValue : Obligations.DigitsPushTheirValue := by
  intro row hrow
  have meaning : ∀ s, exec row.1 s = .next (s.push row.2.1 row.2.2) := by
    intro s
    fin_cases hrow <;> rfl
  refine ⟨?decodes, ?value, fun s => ⟨fun h => ?_, fun d h hd => ?_, fun d h hd => ?_⟩⟩
  case decodes => fin_cases hrow <;> rfl
  case value => fin_cases hrow <;> rfl
  · rw [meaning, State.push_unbounded h]
  · rw [meaning, State.push_off_depth h hd.ne]
  · rw [meaning, State.push_at_depth h hd]

/-- Settles O22, by the outcomes of the binary form. -/
theorem addRule : Obligations.AddRule := ⟨DecodesBack.add rfl, exec_binary exec_add⟩

/-- Settles O23, by the outcomes of the binary form. -/
theorem subRule : Obligations.SubRule := ⟨DecodesBack.sub rfl, exec_binary exec_sub⟩

/-- Settles O24, by the outcomes of the binary form. -/
theorem mulRule : Obligations.MulRule := ⟨DecodesBack.mul rfl, exec_binary exec_mul⟩

/-- Settles O26: the specification's quotient is the truncated one of the integers (`truncDiv_eq_tdiv`). -/
theorem divRule : Obligations.DivRule := by
  refine ⟨DecodesBack.div rfl, fun s a b rest h ha fits => ?quotient, fun s a b rest h ha => ?zero,
    fun s h => ?empty, fun s a h => ?single⟩
  case quotient => rw [exec_div_of_ne_zero h ha fits, aluDiv, truncDiv_eq_tdiv, wrap64]
  case zero =>
    subst ha
    exact exec_div_zero h
  case empty => rw [exec_div, State.popTwo_nil h]
  case single => rw [exec_div, State.popTwo_one h]

/-- Settles O28, by the outcomes of the binary form and the three cases of the comparison. -/
theorem cmpRule : Obligations.CmpRule := by
  obtain ⟨pushes, underflows⟩ := exec_binary exec_cmp
  refine ⟨DecodesBack.cmp rfl, fun s a b rest h fits => ?_, underflows⟩
  rw [pushes s a b rest h fits]
  refine ⟨fun lt => ?_, fun eq => ?_, fun gt => ?_⟩
  · rw [compareSigned_of_lt lt]; rfl
  · rw [compareSigned_of_eq eq]
  · rw [compareSigned_of_gt gt]

/-- Settles O29, by what a pop does. -/
theorem dropRule : Obligations.DropRule :=
  ⟨DecodesBack.drop rfl, fun s x rest h => by rw [exec_drop, State.pop_cons h],
    fun s h => by rw [exec_drop, State.pop_nil h]⟩

/-- Settles O30: the index is resolved against the stack its own pop has left. -/
theorem pickRule : Obligations.PickRule := by
  refine ⟨DecodesBack.pick rfl, fun s i v rest h hi hv fits => ?inside, fun s i rest h hi => ?outside,
    fun s h => ?empty⟩
  case inside =>
    rw [exec_pick, State.pop_cons h, State.resolve_inside hi hv, State.push_popped fits (by simp [h])]
  case outside => rw [exec_pick, State.pop_cons h, State.resolve_outside hi]
  case empty => rw [exec_pick, State.pop_nil h]

/-- Settles O31: at the depth `|shallow|` stands `v`, and its removal leaves `shallow ++ deep`. -/
theorem rollRule : Obligations.RollRule := by
  refine ⟨DecodesBack.roll rfl, fun s i v shallow deep h hi fits => ?inside, fun s i rest h hi => ?outside,
    fun s h => ?empty⟩
  case inside =>
    have nonneg : 0 ≤ i.toInt := hi ▸ Int.natCast_nonneg _
    have depth : i.toNat = shallow.length := Int.ofNat_inj.mp ((toNat_of_toInt_nonneg nonneg).trans hi)
    have found : (shallow ++ v :: deep)[i.toNat]? = some v := by simp [depth]
    have left : (shallow ++ v :: deep).eraseIdx i.toNat = shallow ++ deep := by
      simp [depth, List.eraseIdx_append_of_length_le]
    rw [exec_roll, State.pop_cons h, State.resolve_inside nonneg found]
    simp only [left]
    rw [State.push_popped fits (by simp [h])]
  case outside => rw [exec_roll, State.pop_cons h, State.resolve_outside hi]
  case empty => rw [exec_roll, State.pop_nil h]

end Sys2Proof.Machine

/-! ## Peek and poke (42_memory_ops.md)

SUPPORT. The address translator against the 16384 cells as the specification numbers them, and what each instruction does
at an address of a cell and at any other. -/

namespace Sys2Proof.Machine

open Sys2Proof.Laws

/-! ### The address translator (20_memory.md R32) -/

/-- An address of a cell names the cell of its own number. -/
theorem State.translate_cell {a : Word} (nonneg : 0 ≤ a.toInt) (lt : a.toInt < 16384) (s : State) (o : Byte)
    (k : Nat → State) : s.translate o a k = k a.toInt.toNat := by
  have number : a.toInt.toNat = a.toNat := by rw [← toNat_of_toInt_nonneg nonneg, Int.toNat_natCast]
  rw [number, State.translate_inside ⟨nonneg, lt⟩]

/-- Every other address faults, never clamped. -/
theorem State.translate_no_cell {a : Word} (h : a.toInt < 0 ∨ 16384 ≤ a.toInt) (s : State) (o : Byte)
    (k : Nat → State) : s.translate o a k = s.raise .addressOutOfRange (some o) := by
  refine State.translate_outside (fun inside => ?_) o k
  obtain ⟨nonneg, lt⟩ : 0 ≤ a.toInt ∧ a.toInt < 16384 := inside
  omega

/-! ### The meanings of the instructions -/

theorem exec_peek (s : State) : exec .peek s = .next (s.pop 0x3C fun addr s =>
    s.translate 0x3C addr fun k => s.push 0x3C (s.memRead k)) := rfl

theorem exec_poke (s : State) : exec .poke s = .next (s.popTwo 0x3E fun addr value s =>
    s.translate 0x3E addr fun k => s.memWrite k value) := rfl

/-- PEEK at the address of a cell replaces the address by the whole cell (R75). -/
theorem exec_peek_cell {s : State} {addr : Word} {rest : List Word} (h : s.os = addr :: rest) (nonneg : 0 ≤ addr.toInt)
    (lt : addr.toInt < 16384) (fits : s.osFits) :
    exec .peek s = .next { s with os := s.mem.read addr.toInt.toNat :: rest } := by
  rw [exec_peek, State.pop_cons h, State.translate_cell nonneg lt, State.push_popped fits (by simp [h]),
    State.memRead_eq]

/-- POKE at the address of a cell writes that cell (R76). -/
theorem exec_poke_cell {s : State} {addr value : Word} {rest : List Word} (h : s.os = addr :: value :: rest)
    (nonneg : 0 ≤ addr.toInt) (lt : addr.toInt < 16384) :
    exec .poke s = .next { s with os := rest, mem := s.mem.write addr.toInt.toNat value } := by
  rw [exec_poke, State.popTwo_cons h, State.translate_cell nonneg lt, State.memWrite]

/-! ### The statements of 42_memory_ops.md -/

/-- Settles O32: the translator sees the address after its pop, so the fault leaves the stack without it. -/
theorem peekRule : Obligations.PeekRule := by
  refine ⟨DecodesBack.peek rfl, fun s addr rest h nonneg lt fits => exec_peek_cell h nonneg lt fits,
    fun s addr rest h out => ?outside, fun s h => ?empty⟩
  case outside => rw [exec_peek, State.pop_cons h, State.translate_no_cell out]
  case empty => rw [exec_peek, State.pop_nil h]

/-- Settles O33: the memory POKE leaves is the write of that one cell, whose reads are those of
`Memory.read_write_same` and `Memory.read_write_other`. -/
theorem pokeRule : Obligations.PokeRule := by
  refine ⟨DecodesBack.poke rfl, fun s addr value rest h nonneg lt => ?inside,
    fun s addr value rest h out => ?outside, fun s h => ?empty, fun s addr h => ?single⟩
  case inside =>
    exact ⟨s.mem.write addr.toInt.toNat value, exec_poke_cell h nonneg lt, s.mem.read_write_same _ _,
      fun k other => s.mem.read_write_other _ other⟩
  case outside => rw [exec_poke, State.popTwo_cons h, State.translate_no_cell out]
  case empty => rw [exec_poke, State.popTwo_nil h]
  case single => rw [exec_poke, State.popTwo_one h]

end Sys2Proof.Machine

/-! ## Control flow (43_control.md)

SUPPORT. The relative transfer over popped operands, the saving of a return address below the call stack's depth, and
the meanings of the control instructions. -/

namespace Sys2Proof.Machine

open Sys2Proof.Laws

/-! ### The relative transfer and the call stack with room -/

/-- A relative transfer after its operands are popped, the sum modulo 2^64 (R78). -/
theorem State.jumpRelative_popped (s : State) (rest : List Word) (offset : Word) :
    State.jumpRelative { s with os := rest } offset =
      { s with os := rest, pc := BitVec.ofInt 64 (s.pc.toInt + offset.toInt) } := rfl

/-- A call stack without a depth, or below its depth, takes the return address (10_state.md R16). -/
theorem State.cpush_below_depth {s : State}
    (room : s.cfg.csDepth = .unbounded ∨ ∃ d, s.cfg.csDepth = .finite d ∧ s.cs.length < d) (o : Byte) (v : Word)
    (k : State → State) : s.cpush o v k = k { s with cs := v :: s.cs } := by
  obtain unbounded | ⟨d, depth, lt⟩ := room
  · exact State.cpush_unbounded unbounded o v k
  · exact State.cpush_off_depth depth lt.ne o v k

/-! ### The meanings of the instructions -/

theorem exec_goto (s : State) : exec .goto s = .next (s.pop 0x67 fun offset s => s.jumpRelative offset) := rfl

theorem exec_brz (s : State) : exec .brz s = .next (s.popTwo 0x3F fun offset cond s =>
    if branchTaken cond then s.jumpRelative offset else s) := rfl

theorem exec_call (s : State) : exec .call s = .next (s.cpush 0x63 s.pc fun s =>
    s.pop 0x63 fun target s => s.setPc target) := rfl

theorem exec_ret (s : State) : exec .ret s = .next (s.cpop 0x24 fun r s => s.setPc r) := rfl

theorem exec_exit (s : State) : exec .exit s = .next { s with status := .haltedByExit } := rfl

/-! ### The statements of 43_control.md -/

/-- Settles O37: the PC of the sum is the one exec is given, since the pop leaves it alone. -/
theorem gotoRule : Obligations.GotoRule := by
  refine ⟨DecodesBack.goto rfl, fun s offset rest h => ?jump, fun s h => ?empty⟩
  case jump => rw [exec_goto, State.pop_cons h, State.jumpRelative_popped]
  case empty => rw [exec_goto, State.pop_nil h]

/-- Settles O38: the condition is tested after both pops, so both outcomes leave `rest`. -/
theorem brzRule : Obligations.BrzRule := by
  refine ⟨DecodesBack.brz rfl, fun s offset cond rest h => ⟨fun zero => ?taken, fun nonzero => ?fallsThrough⟩,
    fun s h => ?empty, fun s offset h => ?single⟩
  case taken =>
    rw [exec_brz, State.popTwo_cons h, if_pos ((branchTaken_iff cond).mpr zero), State.jumpRelative_popped]
  case fallsThrough =>
    rw [exec_brz, State.popTwo_cons h, if_neg (mt (branchTaken_iff cond).mp nonzero)]
  case empty => rw [exec_brz, State.popTwo_nil h]
  case single => rw [exec_brz, State.popTwo_one h]

/-- Settles O39: the save is done first, so its fault finds the operand stack untouched and the pop's fault finds the
return address saved. -/
theorem callRule : Obligations.CallRule := by
  refine ⟨DecodesBack.call rfl, fun s target rest h room => ?call, fun s d depth full => ?overflow,
    fun s h room => ?underflow⟩
  case call =>
    rw [exec_call, State.cpush_below_depth room, State.pop_cons (s := { s with cs := s.pc :: s.cs }) h, State.setPc]
  case overflow => rw [exec_call, State.cpush_at_depth depth full]
  case underflow =>
    rw [exec_call, State.cpush_below_depth room, State.pop_nil (s := { s with cs := s.pc :: s.cs }) h]

/-- Settles O40, by what a pop of the call stack does. -/
theorem retRule : Obligations.RetRule := by
  refine ⟨DecodesBack.ret rfl, fun s r rest h => ?saved, fun s h => ?empty⟩
  case saved => rw [exec_ret, State.cpop_cons h, State.setPc]
  case empty => rw [exec_ret, State.cpop_nil h]

/-- Settles O41: `HaltedByExit` is session-terminal, where no action of the host has an effect
(`State.hostAct_of_sessionOver`), and it is not the status of exit code 1 (`exitCodeRule`). -/
theorem exitRule : Obligations.ExitRule := by
  refine ⟨DecodesBack.exit rfl, fun s => ⟨exec_exit s, ?code, fun a => ?later⟩⟩
  case code => exact (exitCodeRule { s with status := .haltedByExit }).2 nofun
  case later => exact State.hostAct_of_sessionOver (s := { s with status := .haltedByExit }) rfl a

end Sys2Proof.Machine

/-! ## Output (44_io.md)

SUPPORT. The digits of the decimal text, by induction on the number of digits allowed, and the byte that PUTC emits. -/

namespace Sys2Proof.Machine

open Sys2Proof.Laws

/-! ### The digits of a magnitude (44_io.md R85) -/

/-- The number a list of digit bytes denotes, most significant first. -/
def digitsValue (digits : List Byte) : Nat := digits.foldl (fun n d => 10 * n + (d.toNat - 0x30)) 0

theorem digitsValue_concat (digits : List Byte) (d : Byte) :
    digitsValue (digits ++ [d]) = 10 * digitsValue digits + (d.toNat - 0x30) := by
  simp [digitsValue]

theorem toNat_digitByte {d : Nat} (h : d < 10) : (digitByte d).toNat = 0x30 + d := by
  have fits : 0x30 + d < 256 := by omega
  simpa [digitByte] using fits

theorem decDigits_of_lt_ten (fuel : Nat) {n : Nat} (h : n < 10) : decDigits (fuel + 1) n = [digitByte n] := by
  simp [decDigits, h]

theorem decDigits_of_ten_le (fuel : Nat) {n : Nat} (h : 10 ≤ n) :
    decDigits (fuel + 1) n = decDigits fuel (n / 10) ++ [digitByte (n % 10)] := by
  simp [decDigits, h.not_gt]

theorem decDigits_ne_nil (fuel n : Nat) : decDigits (fuel + 1) n ≠ [] := by
  obtain small | large := Nat.lt_or_ge n 10
  · simp [decDigits_of_lt_ten fuel small]
  · simp [decDigits_of_ten_le fuel large]

theorem decDigits_ascii (fuel n : Nat) : ∀ d ∈ decDigits fuel n, 0x30 ≤ d.toNat ∧ d.toNat ≤ 0x39 := by
  have digit {k : Nat} (hk : k < 10) : 0x30 ≤ (digitByte k).toNat ∧ (digitByte k).toNat ≤ 0x39 := by
    rw [toNat_digitByte hk]
    omega
  induction fuel generalizing n with
  | zero => exact fun d hd => absurd hd List.not_mem_nil
  | succ fuel ih =>
    intro d hd
    obtain small | large := Nat.lt_or_ge n 10
    · rw [decDigits_of_lt_ten fuel small, List.mem_singleton] at hd
      exact hd ▸ digit small
    · rw [decDigits_of_ten_le fuel large, List.mem_append, List.mem_singleton] at hd
      obtain leading | rfl := hd
      · exact ih (n / 10) d leading
      · exact digit (Nat.mod_lt n (by decide))

/-- With enough digits allowed, the text denotes the number exactly. -/
theorem digitsValue_decDigits {fuel n : Nat} (h : n < 10 ^ fuel) : digitsValue (decDigits fuel n) = n := by
  induction fuel generalizing n with
  | zero =>
    obtain rfl : n = 0 := by simpa using h
    rfl
  | succ fuel ih =>
    obtain small | large := Nat.lt_or_ge n 10
    · simp [decDigits_of_lt_ten fuel small, digitsValue, toNat_digitByte small]
    · have leading : digitsValue (decDigits fuel (n / 10)) = n / 10 :=
        ih (Nat.div_lt_of_lt_mul (by rwa [← Nat.pow_succ']))
      rw [decDigits_of_ten_le fuel large, digitsValue_concat, leading, toNat_digitByte (Nat.mod_lt n (by decide)),
        Nat.add_sub_cancel_left, Nat.div_add_mod]

/-- Only the text of 0 starts with the digit 0: before the last digit stands the text of `n / 10`, which is not 0. -/
theorem eq_zero_of_decDigits_head? {fuel n : Nat} (h : n < 10 ^ fuel)
    (zero : (decDigits fuel n).head? = some 0x30) : n = 0 := by
  induction fuel generalizing n with
  | zero => simpa using h
  | succ fuel ih =>
    obtain small | large := Nat.lt_or_ge n 10
    · rw [decDigits_of_lt_ten fuel small, List.head?_singleton, Option.some_inj] at zero
      have value := toNat_digitByte small
      rw [zero] at value
      exact (Nat.add_left_cancel value).symm
    · have lt : n / 10 < 10 ^ fuel := Nat.div_lt_of_lt_mul (by rwa [← Nat.pow_succ'])
      rw [decDigits_of_ten_le fuel large] at zero
      have nonempty : decDigits fuel (n / 10) ≠ [] := by
        intro empty
        have value := digitsValue_decDigits lt
        rw [empty] at value
        have : n / 10 = 0 := value.symm
        omega
      rw [List.head?_append_of_ne_nil _ nonempty] at zero
      have := ih lt zero
      omega

/-- The magnitude of an int64 has at most 20 digits. -/
theorem natAbs_toInt_lt (v : Word) : v.toInt.natAbs < 10 ^ 20 := by
  have lo := v.le_toInt
  have hi := v.toInt_lt
  omega

/-! ### The byte of PUTC -/

/-- The low 8 bits of a value are the value modulo 256, negative values included (R87). -/
theorem toNat_setWidth_eight (x : Word) : ((x.setWidth 8).toNat : Int) = x.toInt % 256 := by
  rw [BitVec.toNat_setWidth, BitVec.toInt_eq_toNat_cond]
  have := x.isLt
  split <;> omega

/-! ### The meanings of the instructions -/

theorem exec_print (s : State) : exec .print s = .next (s.pop 0x70 fun x s => (dec x).foldl State.emit s) := rfl

theorem exec_putc (s : State) : exec .putc s = .next (s.pop 0x50 fun x s => s.emit (x.setWidth 8)) := rfl

/-! ### The statements of 44_io.md -/

/-- Settles O44: the digits are those of the magnitude, for which 20 digits are enough. -/
theorem decimalTextIsExact : Obligations.DecimalTextIsExact := by
  intro v
  have enough := natAbs_toInt_lt v
  refine ⟨decDigits 20 v.toInt.natAbs, rfl, decDigits_ne_nil 19 _, decDigits_ascii 20 _, fun zero => ?_,
    digitsValue_decDigits enough⟩
  have magnitude : v.toInt.natAbs = 0 := eq_zero_of_decDigits_head? enough zero
  have value : v = 0 := BitVec.eq_of_toInt_eq (Int.natAbs_eq_zero.mp magnitude)
  exact ⟨by rw [magnitude]; rfl, value⟩

/-- Settles O43: emitting the bytes one by one appends the text (`foldl_emit`). -/
theorem printRule : Obligations.PrintRule := by
  refine ⟨DecodesBack.print rfl, fun s x rest h => ?emits, fun s h => ?empty⟩
  case emits => rw [exec_print, State.pop_cons h, foldl_emit]
  case empty => rw [exec_print, State.pop_nil h]

/-- Settles O45: the byte is the truncation of the popped value. -/
theorem putcRule : Obligations.PutcRule := by
  refine ⟨DecodesBack.putc rfl, fun s x rest h => ⟨x.setWidth 8, toNat_setWidth_eight x, ?emits⟩, fun s h => ?empty⟩
  case emits => rw [exec_putc, State.pop_cons h, State.emit]
  case empty => rw [exec_putc, State.pop_nil h]

end Sys2Proof.Machine

/-! ## The state right after reset (70_reset_and_hazards.md)

SUPPORT. What the fault ports show of the record at reset. -/

namespace Sys2Proof.Machine

/-! ### The fault record at reset (10_state.md R21) -/

@[simp] theorem FaultRecord.validBit_clear : FaultRecord.clear.validBit = 0 := rfl

@[simp] theorem FaultRecord.kindCode_clear : FaultRecord.clear.kindCode = 0 := rfl

@[simp] theorem FaultRecord.opcodeField_clear : FaultRecord.clear.opcodeField = 0 := rfl

@[simp] theorem FaultRecord.pc_clear : FaultRecord.clear.pc = 0 := rfl

/-! ### The statement of 70_reset_and_hazards.md -/

/-- Settles O4: `State.reset` is the reset of the reference block, and `State.resetWith` gives every element its value
whatever the parameters; the memory lists no cell, so each reads as 0 (`Memory.read_nil`). -/
theorem resetState : Obligations.ResetState := by
  intro s hs
  obtain ⟨cfg, rfl⟩ : ∃ cfg, s = State.resetWith cfg := hs.elim (fun h => ⟨Config.reference, h⟩) id
  exact ⟨rfl, rfl, rfl, rfl, fun k _ => Memory.read_nil k, rfl, rfl, FaultRecord.validBit_clear,
    FaultRecord.kindCode_clear, FaultRecord.opcodeField_clear, FaultRecord.pc_clear, rfl⟩

end Sys2Proof.Machine

/-! ## Codes and program texts (30_encoding.md)

SUPPORT. The decoder and the encoder undo each other on well-formed instructions, one byte at a time, and so on whole
texts. -/

namespace Sys2Proof

open Sys2Proof.Laws

/-! ### One instruction -/

/-- The byte of a well-formed instruction decodes to it (30_encoding.md R45): the family `DecodesBack`, as one law. -/
theorem decodeByte_encodeByte {i : Instr} (h : i.wf = true) : decodeByte (encodeByte i) = i := by
  cases i with
  | push0 => exact DecodesBack.push0 h
  | push1 => exact DecodesBack.push1 h
  | push2 => exact DecodesBack.push2 h
  | push3 => exact DecodesBack.push3 h
  | push4 => exact DecodesBack.push4 h
  | push5 => exact DecodesBack.push5 h
  | push6 => exact DecodesBack.push6 h
  | push7 => exact DecodesBack.push7 h
  | push8 => exact DecodesBack.push8 h
  | push9 => exact DecodesBack.push9 h
  | add => exact DecodesBack.add h
  | sub => exact DecodesBack.sub h
  | mul => exact DecodesBack.mul h
  | div => exact DecodesBack.div h
  | cmp => exact DecodesBack.cmp h
  | drop => exact DecodesBack.drop h
  | pick => exact DecodesBack.pick h
  | roll => exact DecodesBack.roll h
  | peek => exact DecodesBack.peek h
  | poke => exact DecodesBack.poke h
  | goto => exact DecodesBack.goto h
  | brz => exact DecodesBack.brz h
  | call => exact DecodesBack.call h
  | ret => exact DecodesBack.ret h
  | exit => exact DecodesBack.exit h
  | print => exact DecodesBack.print h
  | putc => exact DecodesBack.putc h
  | nop b => exact DecodesBack.nop b h

theorem encode_append (i : Instr) (rest : List Byte) : encode i ++ rest = encodeByte i :: rest := rfl

theorem decode_cons (b : Byte) (rest : List Byte) : decode (b :: rest) = .ok (decodeByte b, rest) := rfl

/-! ### Whole texts -/

@[simp] theorem decodeAll_eq_map (text : List Byte) : decodeAll text = text.map decodeByte := by
  induction text with
  | nil => rfl
  | cons b text ih => rw [decodeAll, ih, List.map_cons]

@[simp] theorem encodeAll_eq_map (program : List Instr) : encodeAll program = program.map encodeByte := by
  induction program with
  | nil => rfl
  | cons i program ih => rw [encodeAll, ih, encode_append, List.map_cons]

/-! ### The statements -/

/-- Settles O2: the decoder takes the one byte of the instruction, which decodes to it (`decodeByte_encodeByte`). -/
theorem decodeOfEncodeIsIdentity : Obligations.DecodeOfEncodeIsIdentity := by
  intro i rest h
  rw [encode_append, decode_cons, decodeByte_encodeByte h]

/-- Settles O3: reading and writing a text act byte by byte, where each undoes the other. -/
theorem programTextIsMachineCode : Obligations.ProgramTextIsMachineCode := by
  refine ⟨fun text => ⟨?writtenBack, ?oneEach, ?wellFormed⟩, fun program wf => ?readBack⟩
  case writtenBack =>
    have undo : encodeByte ∘ decodeByte = id := funext encodeByte_decodeByte
    rw [decodeAll_eq_map, encodeAll_eq_map, List.map_map, undo, List.map_id]
  case oneEach => rw [decodeAll_eq_map, List.length_map]
  case wellFormed =>
    rw [decodeAll_eq_map]
    exact List.forall_mem_map.mpr fun b _ => decodeByte_wf b
  case readBack =>
    rw [encodeAll_eq_map, decodeAll_eq_map, List.map_map]
    exact (List.map_congr_left fun i hi => decodeByte_encodeByte (wf i hi)).trans program.map_id

end Sys2Proof

/-! ## What an instruction can do

SUPPORT. One inversion lemma for `exec`, from which the frames and the invariants below follow: `Effect s i t` lists,
for each group of instructions, the next states it can answer, and every fault. -/

namespace Sys2Proof.Machine

/-- `Effect s i t`: executing `i` in `s` can answer `t`. What a fault leaves of the two stacks, and its causes, stand in
`fault`; a value the instruction computes is left open. -/
inductive Effect (s : State) : Instr → State → Prop
  /-- A fault (60_exceptions.md R88 to R91). Operands may be gone, and CALL may have saved its return address. -/
  | fault {i : Instr} {kind : FaultKind} {os cs : List Word}
      (listed : kind ∈ faultKindsOf i ∨ (kind = .operandStackOverflow ∧ ¬s.osFits))
      (finite : kind.isCapacity = true → s.cfg ≠ .reference)
      (operands : os.length ≤ s.os.length)
      (calls : cs = s.cs ∨ (i = .call ∧ cs = s.pc :: s.cs ∧ s.cfg.csDepth.isFull s.cs.length = false)) :
      Effect s i (State.raise { s with os := os, cs := cs } kind (some (encodeByte i)))
  /-- PUSHn (41_stack_alu.md R65). -/
  | digit {i : Instr} (v : Word)
      (hi : i ∈ [Instr.push0, .push1, .push2, .push3, .push4, .push5, .push6, .push7, .push8, .push9])
      (room : s.cfg.osDepth.isFull s.os.length = false) : Effect s i { s with os := v :: s.os }
  /-- ADD, SUB, MUL, DIV, CMP (R66 to R70). -/
  | binary {i : Instr} (v : Word) (hi : i ∈ [Instr.add, .sub, .mul, .div, .cmp])
      (room : s.cfg.osDepth.isFull (s.os.drop 2).length = false) : Effect s i { s with os := v :: s.os.drop 2 }
  /-- PICK, PEEK (R73, 42_memory_ops.md R75). -/
  | copy {i : Instr} (v : Word) (hi : i ∈ [Instr.pick, .peek])
      (room : s.cfg.osDepth.isFull (s.os.drop 1).length = false) : Effect s i { s with os := v :: s.os.drop 1 }
  /-- ROLL (41_stack_alu.md R74). -/
  | roll (v : Word) (d : Nat) (room : s.cfg.osDepth.isFull ((s.os.drop 1).eraseIdx d).length = false) :
      Effect s .roll { s with os := v :: (s.os.drop 1).eraseIdx d }
  /-- DROP (R71). -/
  | drop : Effect s .drop { s with os := s.os.drop 1 }
  /-- POKE (42_memory_ops.md R76). -/
  | poke {addr value : Word} {rest : List Word} (operands : s.os = addr :: value :: rest)
      (inside : 0 ≤ addr.toInt ∧ addr.toInt < memCells) :
      Effect s .poke { s with os := rest, mem := s.mem.write addr.toNat value }
  /-- GOTO (43_control.md R79). -/
  | goto (pc : Word) : Effect s .goto { s with os := s.os.drop 1, pc := pc }
  /-- BRZ (R80). -/
  | brz (pc : Word) : Effect s .brz { s with os := s.os.drop 2, pc := pc }
  /-- CALL (R81). -/
  | call (pc : Word) (room : s.cfg.csDepth.isFull s.cs.length = false) :
      Effect s .call { s with os := s.os.drop 1, cs := s.pc :: s.cs, pc := pc }
  /-- RET (R82). -/
  | ret {pc : Word} {rest : List Word} (saved : s.cs = pc :: rest) : Effect s .ret { s with cs := rest, pc := pc }
  /-- EXIT (R83). -/
  | exit : Effect s .exit { s with status := .haltedByExit }
  /-- PRINT, PUTC (44_io.md R86, R87). -/
  | emit {i : Instr} (bytes : List Byte) (hi : i ∈ [Instr.print, .putc]) :
      Effect s i { s with os := s.os.drop 1, out := s.out ++ bytes }
  /-- NOP (40_dispatch.md R58). -/
  | nop (b : Byte) : Effect s (.nop b) s

/-! ### The effects of the shared operations -/

section
variable {s : State} {i : Instr}

/-- A fault that is none of a finite capacity, after some operands are popped. -/
theorem Effect.fault_popped {kind : FaultKind} {os : List Word} (listed : kind ∈ faultKindsOf i)
    (notCapacity : kind.isCapacity = false) (operands : os.length ≤ s.os.length) :
    Effect s i (State.raise { s with os := os } kind (some (encodeByte i))) :=
  .fault (.inl listed) (fun h => absurd (notCapacity.symm.trans h) nofun) operands (.inl rfl)

theorem ne_reference_of_osDepth_full {n : Nat} (full : s.cfg.osDepth.isFull n = true) : s.cfg ≠ .reference := by
  intro h
  rw [h] at full
  cases full

theorem ne_reference_of_csDepth_full {n : Nat} (full : s.cfg.csDepth.isFull n = true) : s.cfg ≠ .reference := by
  intro h
  rw [h] at full
  cases full

/-- A pop, or its underflow. -/
theorem Effect.of_pop {k : Word → State → State} (listed : .stackUnderflow ∈ faultKindsOf i)
    (popped : ∀ v, (s.os.drop 1).length < s.os.length → Effect s i (k v { s with os := s.os.drop 1 })) :
    Effect s i (s.pop (encodeByte i) k) := by
  refine State.pop_cases _ (fun _ => .fault_popped listed rfl le_rfl) fun v below h => ?_
  have left : s.os.drop 1 = below := by rw [h]; rfl
  exact left ▸ popped v (by simp [h])

/-- Two pops, or the underflow of either. -/
theorem Effect.of_popTwo {k : Word → Word → State → State} (listed : .stackUnderflow ∈ faultKindsOf i)
    (popped : ∀ a b, s.os = a :: b :: s.os.drop 2 → (s.os.drop 2).length < s.os.length →
      Effect s i (k a b { s with os := s.os.drop 2 })) :
    Effect s i (s.popTwo (encodeByte i) k) := by
  refine State.popTwo_cases _ (fun _ => .fault_popped listed rfl le_rfl)
    (fun _ _ => .fault_popped listed rfl (Nat.zero_le _)) fun a b below h => ?_
  have left : s.os.drop 2 = below := by rw [h]; rfl
  exact left ▸ popped a b (left ▸ h) (by simp [h])

/-- A push onto fewer elements than the stack had: it has room, or the stack was above its depth. -/
theorem Effect.of_push_popped {v : Word} {os : List Word} (lt : os.length < s.os.length)
    (done : s.cfg.osDepth.isFull os.length = false → Effect s i { s with os := v :: os }) :
    Effect s i (State.push { s with os := os } (encodeByte i) v) := by
  refine State.push_cases _ (fun full => ?_) done
  have above : ¬s.osFits := fun fits => Bool.false_ne_true ((fits.room lt).symm.trans full)
  exact .fault (.inr ⟨rfl, above⟩) (fun _ => ne_reference_of_osDepth_full full) lt.le (.inl rfl)

theorem Effect.of_digit {v : Word}
    (hi : i ∈ [Instr.push0, .push1, .push2, .push3, .push4, .push5, .push6, .push7, .push8, .push9]) :
    Effect s i (s.push (encodeByte i) v) := by
  have listed : .operandStackOverflow ∈ faultKindsOf i := by fin_cases hi <;> exact List.mem_singleton_self _
  refine State.push_cases _ (fun full => ?_) (.digit v hi)
  exact .fault (.inl listed) (fun _ => ne_reference_of_osDepth_full full) le_rfl (.inl rfl)

theorem Effect.of_binary {op : Word → Word → Word} (hi : i ∈ [Instr.add, .sub, .mul, .div, .cmp]) :
    Effect s i (s.binary (encodeByte i) op) := by
  have listed : .stackUnderflow ∈ faultKindsOf i := by fin_cases hi <;> exact List.mem_cons_self
  exact .of_popTwo listed fun a b _ lt => .of_push_popped lt (.binary _ hi)

end

/-! ### The inversion lemma -/

/-- Everything an instruction can do. -/
theorem exec_effect {i : Instr} {s t : State} (h : exec i s = .next t) : Effect s i t := by
  cases i with
  | push0 | push1 | push2 | push3 | push4 | push5 | push6 | push7 | push8 | push9 =>
    cases h
    exact .of_digit (by decide)
  | add | sub | mul | cmp =>
    cases h
    exact .of_binary (by decide)
  | div =>
    cases h
    refine .of_popTwo (by decide) fun a b _ lt => ?_
    split
    · exact .fault_popped (by decide) rfl lt.le
    · exact .of_push_popped lt (.binary _ (by decide))
  | drop =>
    cases h
    exact .of_pop (by decide) fun _ _ => .drop
  | pick =>
    cases h
    refine .of_pop (by decide) fun i lt => ?_
    refine State.resolve_cases _ (fun _ => .fault_popped (by decide) rfl lt.le) fun v _ _ _ => ?_
    exact .of_push_popped lt (.copy v (by decide))
  | roll =>
    cases h
    refine .of_pop (by decide) fun i lt => ?_
    refine State.resolve_cases _ (fun _ => .fault_popped (by decide) rfl lt.le) fun v _ _ _ => ?_
    exact .of_push_popped ((List.length_eraseIdx_le _ _).trans_lt lt) (.roll v _)
  | peek =>
    cases h
    refine .of_pop (by decide) fun addr lt => ?_
    refine State.translate_cases _ (fun _ => .fault_popped (by decide) rfl lt.le) fun _ _ => ?_
    exact .of_push_popped lt (.copy _ (by decide))
  | poke =>
    cases h
    refine .of_popTwo (by decide) fun addr value operands lt => ?_
    refine State.translate_cases _ (fun _ => .fault_popped (by decide) rfl lt.le) fun cell nonneg => ?_
    exact .poke operands ⟨nonneg, toNat_of_toInt_nonneg nonneg ▸ Int.ofNat_lt.mpr cell⟩
  | goto =>
    cases h
    exact .of_pop (by decide) fun _ _ => .goto _
  | brz =>
    cases h
    refine .of_popTwo (by decide) fun offset cond _ _ => ?_
    split
    · exact .brz _
    · exact .brz s.pc
  | call =>
    cases h
    refine State.cpush_cases _ (fun full => ?_) fun room => ?_
    · exact .fault (.inl (by decide)) (fun _ => ne_reference_of_csDepth_full full) le_rfl (.inl rfl)
    · refine State.pop_cases _ (fun _ => ?_) fun target below h => ?_
      · exact .fault (.inl (by decide)) nofun le_rfl (.inr ⟨rfl, rfl, room⟩)
      · obtain rfl : s.os.drop 1 = below := congrArg (List.drop 1) h
        exact .call target room
  | ret =>
    cases h
    exact State.cpop_cases _ (fun _ => .fault_popped (by decide) rfl le_rfl) fun _ _ saved => .ret saved
  | exit =>
    cases h
    exact .exit
  | print =>
    cases h
    refine .of_pop (by decide) fun x _ => ?_
    rw [foldl_emit]
    exact .emit (dec x) (by decide)
  | putc =>
    cases h
    exact .of_pop (by decide) fun x _ => .emit [x.setWidth 8] (by decide)
  | nop b =>
    cases h
    exact .nop b

end Sys2Proof.Machine

/-! ## Frames (10_state.md section 2, 60_exceptions.md)

SUPPORT. What an instruction leaves unchanged, each frame read off the cases of `Effect`. -/

namespace Sys2Proof.Machine

section
variable {s t : State} {i : Instr}

/-- A cell reads as before unless POKE writes it. -/
theorem Effect.read_eq (e : Effect s i t) {k : Nat}
    (other : i = .poke → ∀ addr value rest, s.os = addr :: value :: rest → 0 ≤ addr.toInt ∧ addr.toInt < memCells →
      k ≠ addr.toNat) : t.mem.read k = s.mem.read k := by
  cases e with
  | poke operands inside => exact Memory.read_write_other _ _ (other rfl _ _ _ operands inside)
  | _ => rfl

theorem Effect.pc_eq (e : Effect s i t) (h : i ∉ [Instr.goto, .brz, .call, .ret]) : t.pc = s.pc := by
  cases e with
  | goto | brz | call | ret => exact absurd (by decide) h
  | _ => rfl

theorem Effect.out_eq (e : Effect s i t) (h : i ∉ [Instr.print, .putc]) : t.out = s.out := by
  cases e with
  | emit _ hi => exact absurd hi h
  | _ => rfl

/-- CALL alone adds to the call stack, the PC on top of it; RET alone pops it. -/
theorem Effect.cs_cases (e : Effect s i t) :
    t.cs = s.cs ∨ (i = .call ∧ t.cs = s.pc :: s.cs ∧ s.cfg.csDepth.isFull s.cs.length = false) ∨
      (i = .ret ∧ ∃ r, s.cs = r :: t.cs) := by
  cases e with
  | fault _ _ _ calls => exact calls.imp_right .inl
  | call _ room => exact .inr (.inl ⟨rfl, rfl, room⟩)
  | ret saved => exact .inr (.inr ⟨rfl, _, saved⟩)
  | _ => exact .inl rfl

/-- What no instruction changes: `CODE`, the host's queue, the parameters and the counter of free values. -/
theorem Effect.fixed (e : Effect s i t) :
    t.code = s.code ∧ t.host = s.host ∧ t.cfg = s.cfg ∧ t.freeIndex = s.freeIndex := by
  cases e <;> exact ⟨rfl, rfl, rfl, rfl⟩

theorem codeBufferOverflow_not_mem (i : Instr) : .codeBufferOverflow ∉ faultKindsOf i := by
  cases i with
  | nop => exact List.not_mem_nil
  | _ => decide

/-- `STATUS` and `FAULT` are left alone, or the instruction is EXIT, or a fault is recorded with the instruction's own
byte and the PC. -/
theorem Effect.control_cases (e : Effect s i t) :
    (i ≠ .exit ∧ t.status = s.status ∧ t.fault = s.fault) ∨
    (i = .exit ∧ t.status = .haltedByExit ∧ t.fault = s.fault) ∨
    (∃ kind, (kind ∈ faultKindsOf i ∨ (kind = .operandStackOverflow ∧ ¬s.osFits)) ∧
      (kind.isCapacity = true → s.cfg ≠ .reference) ∧ t.status = .faultedFatal ∧ t.pc = s.pc ∧
      t.fault = { valid := true, kind := some kind, opcode := some (encodeByte i), pc := s.pc }) := by
  cases e with
  | fault listed finite => exact .inr (.inr ⟨_, listed, finite, rfl, rfl, rfl⟩)
  | exit => exact .inr (.inl ⟨rfl, rfl, rfl⟩)
  | digit _ hi | binary _ hi | copy _ hi | emit _ hi =>
    exact .inl ⟨by rintro rfl; exact absurd hi (by decide), rfl, rfl⟩
  | _ => exact .inl ⟨nofun, rfl, rfl⟩

end

/-! ### The statements -/

/-- Settles O46: a cell that reads otherwise is the one POKE writes (`Effect.read_eq`), which its two operands on the
stack name. -/
theorem memoryFrame : Obligations.MemoryFrame := by
  refine ⟨fun i s t hi h k => ?notPoke,
    fun s t h addr value rest hos => ⟨fun _ k hk => ?otherCell, fun out k => ?noCell⟩, fun s t h short k => ?short⟩
  case notPoke => exact (exec_effect h).read_eq fun poke => absurd poke hi
  case otherCell =>
    refine (exec_effect h).read_eq fun _ a v r operands _ => ?_
    obtain ⟨rfl, -⟩ := List.cons.inj (hos.symm.trans operands)
    exact hk
  case noCell =>
    refine (exec_effect h).read_eq fun _ a v r operands inside => ?_
    obtain ⟨rfl, -⟩ := List.cons.inj (hos.symm.trans operands)
    exact absurd inside out
  case short =>
    refine (exec_effect h).read_eq fun _ a v r operands _ => ?_
    rw [operands] at short
    exact absurd short (by simp)

/-- Settles O47: by `Effect.pc_eq` and the ways in which a call stack changes (`Effect.cs_cases`). -/
theorem pcAndCallStackFrame : Obligations.PCAndCallStackFrame := by
  intro i s t h
  refine ⟨(exec_effect h).pc_eq, ?_⟩
  obtain same | ⟨rfl, saved, -⟩ | ⟨rfl, r, popped⟩ := (exec_effect h).cs_cases
  · exact ⟨fun _ => same, fun _ => ⟨[], same.symm⟩, fun _ => .inl same⟩
  · exact ⟨fun other => absurd (by decide) other, nofun, fun _ => .inr saved⟩
  · exact ⟨fun other => absurd (by decide) other, fun _ => ⟨[r], popped⟩, nofun⟩

/-- Settles O48: the stack of each case of `Effect` but the fault is the one of its group. -/
theorem operandStackFrame : Obligations.OperandStackFrame := by
  intro i s t h ok
  cases exec_effect h with
  | fault => exact absurd rfl ok
  | digit v hi | binary v hi | copy v hi | emit v hi => fin_cases hi <;> simp
  | poke operands => simp [operands]
  | roll | drop | goto | brz | call | ret | exit | nop => simp

/-- Settles O50: a stack within its depth leaves only the faults of the instruction's rule. -/
theorem statusAndFaultFrame : Obligations.StatusAndFaultFrame := by
  intro i s t fits h
  refine (exec_effect h).control_cases.imp_right (Or.imp_right ?_)
  rintro ⟨kind, listed, -, status, pc, fault⟩
  exact ⟨kind, listed.resolve_right fun above => above.2 fits, status, pc, fault⟩


end Sys2Proof.Machine

/-! ## What a step can do, and what every step keeps (10_state.md, 40_dispatch.md section 3)

SUPPORT. The inversion lemmas of the host's turn and of the step, and the invariant over `Effect`. -/

namespace Sys2Proof.Machine

/-! ### The inversion lemmas -/

/-- Everything that can happen while the block is not running. -/
theorem State.hostTurn_cases (P : State → Prop) {s : State}
    (taken : ∀ later, P { s with host := later })
    (appended : ∀ later bytes, s.status = .haltedEndOfCode →
      s.cfg.codeCap.admits (s.code.length + bytes.length) = true → P { s with host := later, code := s.code ++ bytes })
    (overflow : ∀ later (bytes : List Byte), s.status = .haltedEndOfCode →
      s.cfg.codeCap.admits (s.code.length + bytes.length) = false →
      P (State.raise { s with host := later } .codeBufferOverflow none))
    (started : ∀ later, s.status = .haltedEndOfCode → P { s with host := later, status := .running }) :
    P s.hostTurn := by
  cases h : s.host with
  | nil => rw [State.hostTurn_nil h]; exact taken s.host
  | cons a later =>
    rw [State.hostTurn_cons h]
    exact State.hostAct_cases P (taken later) (appended later) (overflow later) (started later)

/-- Everything one step can do. -/
theorem step_cases {s t : State} (h : step s = .next t) :
    (s.status ≠ .running ∧ t = s.hostTurn) ∨
    (s.status = .running ∧ s.pc.toInt < 0 ∧ t = s.raise .negativePC none) ∨
    (s.status = .running ∧ 0 ≤ s.pc.toInt ∧ (s.code.length : Int) ≤ s.pc.toInt ∧ t = s.haltEndOfCode) ∨
    (s.status = .running ∧ 0 ≤ s.pc.toInt ∧ ∃ o, s.code[s.pc.toNat]? = some o ∧
      exec (decodeByte o) s.advance = .next t) := by
  by_cases hr : s.status = .running
  · obtain ⟨neg, -⟩ | ⟨nonneg, len, -⟩ | ⟨o, nonneg, -, ho, -⟩ := s.fetch_inv
    · rw [step_negative hr neg] at h
      cases h
      exact .inr (.inl ⟨hr, neg, rfl⟩)
    · rw [step_end hr nonneg len] at h
      cases h
      exact .inr (.inr (.inl ⟨hr, nonneg, len, rfl⟩))
    · rw [step_opcode hr nonneg ho] at h
      exact .inr (.inr (.inr ⟨hr, nonneg, o, ho, h⟩))
  · rw [step_idle hr] at h
    cases h
    exact .inl ⟨hr, rfl⟩

/-! ### The advance -/

/-- The advance that leaves int64 (log 1). -/
theorem State.advance_beyond {s : State} (h : ¬s.pc.toInt + 1 < 2 ^ 63) :
    s.advance = { s with pc := Config.freeAdvance s.freeIndex, freeIndex := s.freeIndex + 1 } := if_neg h

section
variable (s : State)

@[simp] theorem State.advance_code : s.advance.code = s.code := by unfold State.advance; split <;> rfl
@[simp] theorem State.advance_cs : s.advance.cs = s.cs := by unfold State.advance; split <;> rfl
@[simp] theorem State.advance_status : s.advance.status = s.status := by unfold State.advance; split <;> rfl
@[simp] theorem State.advance_fault : s.advance.fault = s.fault := by unfold State.advance; split <;> rfl
@[simp] theorem State.advance_cfg : s.advance.cfg = s.cfg := by unfold State.advance; split <;> rfl

end

/-! ### The invariant -/

section
variable {s t : State} {i : Instr}

theorem Effect.mem_wf (e : Effect s i t) (h : s.mem.wf) : t.mem.wf := by
  cases e with
  | poke _ inside =>
    have number := toNat_of_toInt_nonneg inside.1
    exact Memory.wf_write _ h (by omega)
  | _ => exact h

theorem Effect.osFits (e : Effect s i t) (fits : s.osFits) : t.osFits := by
  have shorter {os : List Word} (le : os.length ≤ s.os.length) : s.cfg.osDepth.admits os.length = true :=
    Capacity.admits_mono fits le
  cases e with
  | fault _ _ operands => exact shorter operands
  | digit _ _ room => exact Capacity.admits_succ fits room
  | binary _ _ room | copy _ _ room => exact Capacity.admits_succ (shorter (by simp)) room
  | roll _ _ room =>
    exact Capacity.admits_succ (shorter ((List.length_eraseIdx_le _ _).trans (by simp))) room
  | poke operands => exact shorter (by simp only [operands, List.length_cons]; omega)
  | drop | goto | brz | call | emit => exact shorter (by simp)
  | ret | exit | nop => exact fits

theorem Effect.csFits (e : Effect s i t) (fits : s.csFits) : t.csFits := by
  obtain ⟨-, -, cfg, -⟩ := e.fixed
  unfold State.csFits at *
  rw [cfg]
  obtain same | ⟨-, saved, room⟩ | ⟨-, r, popped⟩ := e.cs_cases
  · rwa [same]
  · rw [saved]
    exact Capacity.admits_succ fits room
  · exact Capacity.admits_mono fits (by simp [popped])

theorem Effect.faultAgrees (e : Effect s i t) (alive : s.status ≠ .faultedFatal) (agrees : s.faultAgrees) :
    t.faultAgrees := by
  obtain ⟨-, status, fault⟩ | ⟨-, status, fault⟩ | ⟨kind, -, -, status, -, fault⟩ := e.control_cases
  · unfold State.faultAgrees
    rwa [status, fault]
  · exact ⟨fun _ => fault.trans (agrees.1 alive), fun h => absurd (status.symm.trans h) nofun⟩
  · exact ⟨fun h => absurd status h, fun _ => by simp [fault]⟩

/-- An instruction keeps the invariant, from a state that has not faulted. -/
theorem Effect.inv (e : Effect s i t) (alive : s.status ≠ .faultedFatal) (inv : s.Inv) : t.Inv := by
  obtain ⟨code, -, cfg, -⟩ := e.fixed
  refine ⟨e.mem_wf inv.mem, e.osFits inv.os, e.csFits inv.cs, ?code, e.faultAgrees alive inv.fault⟩
  case code =>
    unfold State.codeFits
    rw [code, cfg]
    exact inv.code

/-- A fault record agrees with the status it is raised with. -/
theorem State.faultAgrees_raise (s : State) (kind : FaultKind) (o : Option Byte) : (s.raise kind o).faultAgrees :=
  ⟨fun h => absurd rfl h, fun _ => ⟨rfl, nofun⟩⟩

theorem State.Inv.raise (inv : s.Inv) (kind : FaultKind) (o : Option Byte) : (s.raise kind o).Inv :=
  ⟨inv.mem, inv.os, inv.cs, inv.code, s.faultAgrees_raise kind o⟩

/-- The record at reset agrees with every status but the faulted one. -/
theorem State.Inv.withStatus (inv : s.Inv) (alive : s.status ≠ .faultedFatal) {st : Status} (h : st ≠ .faultedFatal) :
    State.Inv { s with status := st } :=
  ⟨inv.mem, inv.os, inv.cs, inv.code, fun _ => inv.fault.1 alive, fun h' => absurd h' h⟩

theorem State.Inv.withHost (inv : s.Inv) (later : List HostAction) : State.Inv { s with host := later } :=
  ⟨inv.mem, inv.os, inv.cs, inv.code, inv.fault⟩

theorem State.Inv.withCode (inv : s.Inv) {code : List Byte} (fits : s.cfg.codeCap.admits code.length = true) :
    State.Inv { s with code := code } :=
  ⟨inv.mem, inv.os, inv.cs, fits, inv.fault⟩

theorem State.Inv.advance (inv : s.Inv) : s.advance.Inv := by
  obtain ⟨pc, n, h⟩ := s.advance_inv
  rw [h]
  exact ⟨inv.mem, inv.os, inv.cs, inv.code, inv.fault⟩

theorem State.Inv.hostTurn (inv : s.Inv) : s.hostTurn.Inv := by
  refine State.hostTurn_cases _ (fun later => inv.withHost later) (fun later bytes _ room => ?_)
    (fun later bytes _ _ => (inv.withHost later).raise _ _) (fun later halted => ?_)
  · exact (inv.withHost later).withCode (List.length_append ▸ room)
  · exact (inv.withHost later).withStatus (by simp [halted]) nofun

end

/-! ### The statements -/

/-- Settles O11: outside `Running` the host's turn answers; inside, each of the three things a fetch can find does
(`exec_answers_next` for a byte). -/
theorem everyStepAnswersNext : Obligations.EveryStepAnswersNext := by
  intro s
  by_cases hr : s.status = .running
  · obtain ⟨neg, -⟩ | ⟨nonneg, len, -⟩ | ⟨o, nonneg, -, ho, -⟩ := s.fetch_inv
    · exact ⟨_, step_negative hr neg⟩
    · exact ⟨_, step_end hr nonneg len⟩
    · rw [step_opcode hr nonneg ho]
      exact exec_answers_next _ _
  · exact ⟨_, step_idle hr⟩

/-- Settles O55: at reset everything is empty, and every capacity admits the empty sequence. -/
theorem resetMeetsInvariant : Obligations.ResetMeetsInvariant := by
  intro cfg
  have empty (c : Capacity) : c.admits 0 = true := by cases c <;> simp
  exact ⟨Memory.wf_nil, empty _, empty _, empty _, fun _ => rfl, nofun⟩

/-- Settles O56: the host's turn and the instruction keep the invariant (`State.Inv.hostTurn`, `Effect.inv`); the two
ways a fetch ends a run write the status and the record only. -/
theorem stepKeepsInvariant : Obligations.StepKeepsInvariant := by
  intro s t inv h
  obtain ⟨-, rfl⟩ | ⟨-, -, rfl⟩ | ⟨hr, -, -, rfl⟩ | ⟨hr, -, o, -, h⟩ := step_cases h
  · exact inv.hostTurn
  · exact inv.raise _ _
  · exact inv.withStatus (by simp [hr]) nofun
  · exact (exec_effect h).inv (by simp [hr]) inv.advance

end Sys2Proof.Machine

/-! ## What an instruction does not read (10_state.md R15, R23, R28; 20_memory.md R31)

SUPPORT. A change `f` of the state that commutes with the shared operations commutes with every instruction that uses
them: other code, other data memory, another call stack, earlier output, another `STATUS` and `FAULT`. A change of the
capacities, which pushes depend on, is held to less: some outcomes are exempt. -/

namespace Sys2Proof.Machine

/-- The outcome `b` of the changed state is that of the plain one, `a`, changed by `f`, unless `a` is exempt. -/
def AgreeUpTo (f : State → State) (exempt : State → Prop) (a b : State) : Prop := exempt a ∨ b = f a

/-- `f` commutes with the operations that every `f` below commutes with. -/
structure Commutes (f : State → State) : Prop where
  pc : ∀ s, (f s).pc = s.pc := by intros; rfl
  os : ∀ s, (f s).os = s.os := by intros; rfl
  setPc : ∀ s target, (f s).setPc target = f (s.setPc target) := by intros; rfl
  setOs : ∀ (s : State) os, { f s with os := os } = f { s with os := os } := by intros; rfl
  raise : ∀ s kind o, (f s).raise kind o = f (s.raise kind o) := by intros; rfl
  exitSession : ∀ s, (f s).exitSession = f s.exitSession := by intros; rfl
  emit : ∀ s b, (f s).emit b = f (s.emit b) := by intros; rfl

/-- `f` commutes with the accesses to data memory. -/
structure CommutesWithMemory (f : State → State) : Prop where
  memRead : ∀ s a, (f s).memRead a = s.memRead a := by intros; rfl
  memWrite : ∀ s a v, (f s).memWrite a v = f (s.memWrite a v) := by intros; rfl

/-- `f` commutes with the operations of the call stack. -/
structure CommutesWithCalls (f : State → State) : Prop where
  cs : ∀ s, (f s).cs = s.cs := by intros; rfl
  setCs : ∀ (s : State) cs, { f s with cs := cs } = f { s with cs := cs } := by intros; rfl

section
variable {f : State → State} {exempt : State → Prop} {s : State} {o : Byte}

theorem AgreeUpTo.refl (f : State → State) (exempt : State → Prop) (a : State) : AgreeUpTo f exempt a (f a) := .inr rfl

theorem Commutes.pop (c : Commutes f) {k : Word → State → State}
    (rest : ∀ v u, AgreeUpTo f exempt (k v u) (k v (f u))) :
    AgreeUpTo f exempt (s.pop o k) ((f s).pop o k) := by
  refine State.pop_cases (AgreeUpTo f exempt · _) (fun h => ?_) fun v below h => ?_
  · rw [State.pop_nil ((c.os s).trans h), c.raise]
    exact .refl _ _ _
  · rw [State.pop_cons ((c.os s).trans h), c.setOs]
    exact rest v _

theorem Commutes.popTwo (c : Commutes f) {k : Word → Word → State → State}
    (rest : ∀ a b u, AgreeUpTo f exempt (k a b u) (k a b (f u))) :
    AgreeUpTo f exempt (s.popTwo o k) ((f s).popTwo o k) :=
  c.pop fun a _ => c.pop fun b u => rest a b u

theorem Commutes.translate (c : Commutes f) {a : Word} {k k' : Nat → State}
    (rest : ∀ n, AgreeUpTo f exempt (k n) (k' n)) :
    AgreeUpTo f exempt (s.translate o a k) ((f s).translate o a k') := by
  unfold State.translate
  split
  · exact rest _
  · exact .inr (c.raise s _ _)

theorem Commutes.resolve (c : Commutes f) {i : Word} {k k' : Nat → Word → State}
    (rest : ∀ n v, AgreeUpTo f exempt (k n v) (k' n v)) :
    AgreeUpTo f exempt (s.resolve o i k) ((f s).resolve o i k') := by
  unfold State.resolve
  rw [c.os]
  split
  · exact .inr (c.raise s _ _)
  · split
    · exact rest _ _
    · exact .inr (c.raise s _ _)

theorem Commutes.jumpRelative (c : Commutes f) (offset : Word) :
    (f s).jumpRelative offset = f (s.jumpRelative offset) := by
  rw [State.jumpRelative, c.pc, c.setPc, State.jumpRelative]

theorem Commutes.cpop (c : Commutes f) (cc : CommutesWithCalls f) {k : Word → State → State}
    (rest : ∀ v u, AgreeUpTo f exempt (k v u) (k v (f u))) :
    AgreeUpTo f exempt (s.cpop o k) ((f s).cpop o k) := by
  refine State.cpop_cases (AgreeUpTo f exempt · _) (fun h => ?_) fun v below h => ?_
  · rw [State.cpop_nil ((cc.cs s).trans h), c.raise]
    exact .refl _ _ _
  · rw [State.cpop_cons ((cc.cs s).trans h), cc.setCs]
    exact rest v _

/-- An instruction commutes with every `f` that commutes with the operations it uses. The two pushes, which depend on
the capacities, may commute up to exempt outcomes. -/
theorem exec_commutes (c : Commutes f) {i : Instr}
    (memory : i = .peek ∨ i = .poke → CommutesWithMemory f)
    (calls : i = .call ∨ i = .ret → CommutesWithCalls f)
    (push : ∀ s o v, AgreeUpTo f exempt (s.push o v) ((f s).push o v))
    (cpush : i = .call → ∀ (s : State) o v k, (∀ u, AgreeUpTo f exempt (k u) (k (f u))) →
      AgreeUpTo f exempt (s.cpush o v k) ((f s).cpush o v k))
    {t : State} (h : exec i s = .next t) : ∃ u, exec i (f s) = .next u ∧ AgreeUpTo f exempt t u := by
  cases i with
  | push0 | push1 | push2 | push3 | push4 | push5 | push6 | push7 | push8 | push9 =>
    cases h
    exact ⟨_, rfl, push _ _ _⟩
  | add | sub | mul | cmp =>
    cases h
    exact ⟨_, rfl, c.popTwo fun _ _ u => push u _ _⟩
  | div =>
    cases h
    refine ⟨_, rfl, c.popTwo fun a b u => ?_⟩
    split
    · exact .inr (c.raise u _ _)
    · exact push u _ _
  | drop =>
    cases h
    exact ⟨_, rfl, c.pop fun _ _ => .refl _ _ _⟩
  | pick =>
    cases h
    exact ⟨_, rfl, c.pop fun i u => c.resolve fun _ v => push u _ v⟩
  | roll =>
    cases h
    refine ⟨_, rfl, c.pop fun i u => c.resolve fun d v => ?_⟩
    rw [c.os, c.setOs]
    exact push _ _ v
  | peek =>
    cases h
    refine ⟨_, rfl, c.pop fun addr u => c.translate fun k => ?_⟩
    rw [(memory (.inl rfl)).memRead]
    exact push u _ _
  | poke =>
    cases h
    exact ⟨_, rfl, c.popTwo fun addr value u => c.translate fun k => .inr ((memory (.inr rfl)).memWrite u k value)⟩
  | goto =>
    cases h
    exact ⟨_, rfl, c.pop fun offset _ => .inr (c.jumpRelative offset)⟩
  | brz =>
    cases h
    refine ⟨_, rfl, c.popTwo fun offset cond u => ?_⟩
    split
    · exact .inr (c.jumpRelative offset)
    · exact .refl _ _ _
  | call =>
    cases h
    refine ⟨_, rfl, ?_⟩
    rw [c.pc]
    exact cpush rfl _ _ _ _ fun u => c.pop fun target u => .inr (c.setPc u target)
  | ret =>
    cases h
    exact ⟨_, rfl, c.cpop (calls (.inr rfl)) fun r u => .inr (c.setPc u r)⟩
  | exit =>
    cases h
    exact ⟨_, rfl, .inr (c.exitSession s)⟩
  | print =>
    cases h
    exact ⟨_, rfl, c.pop fun x u => .inr (List.foldl_hom f c.emit)⟩
  | putc =>
    cases h
    exact ⟨_, rfl, c.pop fun x u => .inr (c.emit u _)⟩
  | nop b =>
    cases h
    exact ⟨_, rfl, .refl _ _ _⟩

/-- A change that keeps the capacities commutes with a push. -/
theorem Commutes.push (c : Commutes f) (cfg : (f s).cfg = s.cfg) (o : Byte) (v : Word) :
    (f s).push o v = f (s.push o v) := by
  refine State.push_cases (fun t => (f s).push o v = f t) (fun full => ?_) fun room => ?_
  · rw [State.push_full (by rwa [cfg, c.os]), c.raise]
  · rw [State.push_room (by rwa [cfg, c.os]), c.os, c.setOs]

/-- A change that keeps the capacities commutes with the save of a return address. -/
theorem Commutes.cpush (c : Commutes f) (cc : CommutesWithCalls f) (cfg : (f s).cfg = s.cfg) {v : Word}
    {k : State → State} (rest : ∀ u, AgreeUpTo f exempt (k u) (k (f u))) :
    AgreeUpTo f exempt (s.cpush o v k) ((f s).cpush o v k) := by
  refine State.cpush_cases (AgreeUpTo f exempt · _) (fun full => .inr ?_) fun room => ?_
  · rw [State.cpush_full (by rwa [cfg, cc.cs]), c.raise]
  · rw [State.cpush_room (by rwa [cfg, cc.cs]), cc.cs, cc.setCs]
    exact rest _

/-- An instruction commutes with every change that keeps the capacities and commutes with the operations it uses. -/
theorem exec_commutes_of_cfg (c : Commutes f) (cfg : ∀ s, (f s).cfg = s.cfg) {i : Instr}
    (memory : i = .peek ∨ i = .poke → CommutesWithMemory f)
    (calls : i = .call ∨ i = .ret → CommutesWithCalls f)
    {t : State} (h : exec i s = .next t) : exec i (f s) = .next (f t) := by
  obtain ⟨u, hu, never | rfl⟩ := exec_commutes (exempt := fun _ => False) c memory calls
    (fun s o v => .inr (c.push (cfg s) o v)) (fun call s _ _ _ => c.cpush (calls (.inl call)) (cfg s)) h
  · exact never.elim
  · exact hu

end

/-! ### What no instruction, or only some instruction, depends on -/

/-- Other code. -/
def State.withCode (code : List Byte) (s : State) : State := { s with code := code }

/-- Other data memory. -/
def State.withMem (m : Memory) (s : State) : State := { s with mem := m }

/-- Another call stack. -/
def State.withCs (cs : List Word) (s : State) : State := { s with cs := cs }

/-- The bytes `earlier` were emitted before all others. -/
def State.withEarlier (earlier : List Byte) (s : State) : State := { s with out := earlier ++ s.out }

/-- Another `STATUS`, unless the state has left `Running`, and another `FAULT`, unless a fault is recorded. -/
def State.withControl (st : Status) (fault : FaultRecord) (s : State) : State :=
  { s with
    status := if s.status = .running then st else s.status
    fault := if s.fault.valid then s.fault else fault }

section
variable {s t : State} {i : Instr}

theorem exec_withCode (code : List Byte) (h : exec i s = .next t) :
    exec i (s.withCode code) = .next (t.withCode code) :=
  exec_commutes_of_cfg (f := State.withCode code) {} (fun _ => rfl) (fun _ => {}) (fun _ => {}) h

theorem exec_withMem (m : Memory) (peek : i ≠ .peek) (poke : i ≠ .poke) (h : exec i s = .next t) :
    exec i (s.withMem m) = .next (t.withMem m) :=
  exec_commutes_of_cfg (f := State.withMem m) {} (fun _ => rfl)
    (fun uses => absurd uses (not_or.mpr ⟨peek, poke⟩)) (fun _ => {}) h

theorem exec_withCs (cs : List Word) (call : i ≠ .call) (ret : i ≠ .ret) (h : exec i s = .next t) :
    exec i (s.withCs cs) = .next (t.withCs cs) :=
  exec_commutes_of_cfg (f := State.withCs cs) {} (fun _ => rfl) (fun _ => {})
    (fun uses => absurd uses (not_or.mpr ⟨call, ret⟩)) h

theorem exec_withEarlier (earlier : List Byte) (h : exec i s = .next t) :
    exec i (s.withEarlier earlier) = .next (t.withEarlier earlier) :=
  exec_commutes_of_cfg (f := State.withEarlier earlier) { emit := by simp [State.emit, State.withEarlier] }
    (fun _ => rfl) (fun _ => {}) (fun _ => {}) h

theorem exec_withControl (st : Status) (fault : FaultRecord) (h : exec i s = .next t) :
    exec i (s.withControl st fault) = .next (t.withControl st fault) :=
  exec_commutes_of_cfg (f := State.withControl st fault) {} (fun _ => rfl) (fun _ => {}) (fun _ => {}) h

end

/-! ### The statements -/

/-- Settles O52: the call stack is used by CALL and RET only (`exec_withCs`). -/
theorem callStackIsInvisible : Obligations.CallStackIsInvisible := fun _ _ _ cs call ret => exec_withCs cs call ret

/-- Settles O53: no operation uses `CODE` (`exec_withCode`), and only PEEK and POKE use data memory (`exec_withMem`). -/
theorem memoryAndCodeAreInvisible : Obligations.MemoryAndCodeAreInvisible := fun _ _ _ h =>
  ⟨fun code => exec_withCode code h, fun m peek poke => exec_withMem m peek poke h⟩

/-- Settles O49: what the instruction emits is what it emits as the first output (`exec_withEarlier`). -/
theorem outputFrame : Obligations.OutputFrame := by
  intro i s t h
  obtain ⟨first, hfirst⟩ := exec_answers_next i { s with out := [] }
  have later (earlier : List Byte) : exec i { s with out := earlier } = .next (first.withEarlier earlier) := by
    simpa [State.withEarlier] using exec_withEarlier earlier hfirst
  obtain rfl : t = first.withEarlier s.out := by simpa using h.symm.trans (later s.out)
  exact ⟨(exec_effect h).out_eq, first.out, rfl, later⟩

/-- Settles O54: the state answered from `Running` and a clear record is the `t` of the statement; its own `STATUS` and
`FAULT` say which of the three outcomes it is (`Effect.control_cases`). -/
theorem controlStateIsInvisible : Obligations.ControlStateIsInvisible := by
  intro i s
  obtain ⟨t, h⟩ := exec_answers_next i { s with status := .running, fault := .clear }
  have same (st : Status) (f : FaultRecord) :
      exec i { s with status := st, fault := f } = .next (t.withControl st f) := exec_withControl st f h
  refine ⟨t, ?_⟩
  obtain ⟨-, status, fault⟩ | ⟨hi, status, fault⟩ | ⟨kind, -, -, status, -, fault⟩ := (exec_effect h).control_cases
  · refine .inl fun st f => ?_
    rw [same, State.withControl, status, fault]
    rfl
  · refine .inr (.inl ⟨hi, fun st f => ?_⟩)
    rw [same, State.withControl, status, fault]
    rfl
  · refine .inr (.inr ⟨t.fault, by rw [fault], fun st f => ?_⟩)
    rw [same, State.withControl, status, fault]
    rfl

end Sys2Proof.Machine

/-! ## The bounded block and the unbounded reference (00_scope.md section 4, 92_eei_decisions.md D10, D11)

SUPPORT. Taking the reference's parameters commutes with every step that leaves no fault of a finite capacity, and such
a fault is final. -/

namespace Sys2Proof.Machine

/-- The state in a block with the parameters of the reference. -/
def State.withReference (s : State) : State := { s with cfg := .reference }

/-! ### Capacity faults -/

section
variable {s t : State}

theorem State.capacityFault_congr (h : t.fault = s.fault) : t.capacityFault ↔ s.capacityFault := by
  unfold State.capacityFault
  rw [h]

theorem State.capacityFault_raise {kind : FaultKind} {o : Option Byte} :
    (s.raise kind o).capacityFault ↔ kind.isCapacity = true := by
  simp [State.capacityFault]

/-- A fault of a finite capacity ends the session. -/
theorem State.Inv.sessionOver_of_capacityFault (inv : s.Inv) (h : s.capacityFault) : s.status.sessionOver = true := by
  obtain ⟨kind, hk, -⟩ := h
  refine (Status.sessionOver_iff _).mpr (.inr ?_)
  by_contra alive
  rw [inv.fault.1 alive] at hk
  cases hk

/-- A fault of a finite capacity stays. -/
theorem capacityFault_runSteps (inv : s.Inv) (h : s.capacityFault) {k : Nat} (run : runSteps k s = .next t) :
    t.capacityFault := by
  rw [runSteps_of_sessionOver (inv.sessionOver_of_capacityFault h)] at run
  cases run
  exact h

/-! ### One step in both blocks -/

/-- Two outcomes agree but for the parameters, unless the first holds a fault of a finite capacity. -/
abbrev AgreeButForCapacity : State → State → Prop := AgreeUpTo State.withReference State.capacityFault

theorem exec_withReference {i : Instr} (h : exec i s = .next t) :
    ∃ u, exec i s.withReference = .next u ∧ AgreeButForCapacity t u := by
  refine exec_commutes (f := State.withReference) {} (fun _ => {}) (fun _ => {}) (fun s o v => ?push)
    (fun _ s o v k rest => ?cpush) h
  case push =>
    refine State.push_cases (AgreeButForCapacity · _) (fun _ => .inl (State.capacityFault_raise.mpr rfl)) fun _ => ?_
    exact .inr (State.push_unbounded (s := s.withReference) rfl o v)
  case cpush =>
    refine State.cpush_cases (AgreeButForCapacity · _) (fun _ => .inl (State.capacityFault_raise.mpr rfl)) fun _ => ?_
    rw [State.cpush_unbounded (s := s.withReference) rfl]
    exact rest _

theorem State.hostAppend_withReference (s : State) (bytes : List Byte) :
    AgreeButForCapacity (s.hostAppend bytes) (s.withReference.hostAppend bytes) := by
  by_cases halted : s.status = .haltedEndOfCode
  · cases room : s.cfg.codeCap.admits (s.code.length + bytes.length) with
    | true =>
      rw [State.hostAppend_room halted room, State.hostAppend_room (s := s.withReference) halted rfl]
      exact .refl _ _ _
    | false =>
      rw [State.hostAppend_overflow halted room]
      exact .inl (State.capacityFault_raise.mpr rfl)
  · rw [State.hostAppend_of_ne halted, State.hostAppend_of_ne (s := s.withReference) halted]
    exact .refl _ _ _

theorem State.hostRun_withReference (s : State) : s.withReference.hostRun = s.hostRun.withReference := by
  by_cases halted : s.status = .haltedEndOfCode
  · rw [State.hostRun_halted halted, State.hostRun_halted (s := s.withReference) halted]
    rfl
  · rw [State.hostRun_of_ne halted, State.hostRun_of_ne (s := s.withReference) halted]

theorem State.hostTurn_withReference (s : State) : AgreeButForCapacity s.hostTurn s.withReference.hostTurn := by
  cases h : s.host with
  | nil =>
    rw [State.hostTurn_nil h, State.hostTurn_nil (s := s.withReference) h]
    exact .refl _ _ _
  | cons a later =>
    rw [State.hostTurn_cons h, State.hostTurn_cons (s := s.withReference) h]
    cases a with
    | append bytes => exact State.hostAppend_withReference { s with host := later } bytes
    | run => exact .inr (State.hostRun_withReference { s with host := later })

theorem State.advance_withReference (s : State) : s.withReference.advance = s.advance.withReference := by
  by_cases h : s.pc.toInt + 1 < 2 ^ 63
  · rw [State.advance_eq h, State.advance_eq (s := s.withReference) h]
    rfl
  · rw [State.advance_beyond h, State.advance_beyond (s := s.withReference) h]
    rfl

theorem step_withReference (h : step s = .next t) :
    ∃ u, step s.withReference = .next u ∧ AgreeButForCapacity t u := by
  obtain ⟨hr, rfl⟩ | ⟨hr, neg, rfl⟩ | ⟨hr, nonneg, len, rfl⟩ | ⟨hr, nonneg, o, ho, h⟩ := step_cases h
  · exact ⟨_, step_idle (s := s.withReference) hr, s.hostTurn_withReference⟩
  · exact ⟨_, step_negative (s := s.withReference) hr neg, .refl _ _ _⟩
  · exact ⟨_, step_end (s := s.withReference) hr nonneg len, .refl _ _ _⟩
  · rw [step_opcode (s := s.withReference) hr nonneg ho, State.advance_withReference]
    exact exec_withReference h

end

/-! ### The statements -/

/-- Settles O60, by induction over the number of steps: a step that leaves no fault of a finite capacity is the same in
both blocks (`step_withReference`), and one that leaves such a fault leaves it for good (`capacityFault_runSteps`). -/
theorem boundedRunMatchesReference : Obligations.BoundedRunMatchesReference := by
  intro k
  induction k with
  | zero =>
    intro s t _ h _
    cases h
    rfl
  | succ k ih =>
    intro s t inv h ok
    obtain ⟨u, hu⟩ : ∃ u, step s = .next u := everyStepAnswersNext s
    rw [runSteps_succ k hu] at h
    have invU := stepKeepsInvariant s u inv hu
    obtain ⟨_, hv, fault | rfl⟩ := step_withReference hu
    · exact absurd (capacityFault_runSteps invU fault h) ok
    · exact (runSteps_succ k hv).trans (ih u t invU h ok)

end Sys2Proof.Machine

/-! ## What holds of every step (60_exceptions.md, 40_dispatch.md, 10_state.md section 3)

SUPPORT. Each statement is one case analysis of the step (`step_cases`), over the frames of the instruction it runs. -/

namespace Sys2Proof.Machine

section
variable {s t : State} {i : Instr}

/-- The instruction of a byte is EXIT for the exit opcode only. -/
theorem eq_of_decodeByte_eq_exit {o : Byte} (h : decodeByte o = .exit) : o = 0x21 := by
  rw [← encodeByte_decodeByte o, h]
  rfl

/-- The advance from a fetched byte of a code shorter than 2^63 gives a positive PC (10_state.md section 3). -/
theorem State.one_le_advance_pc {o : Byte} (nonneg : 0 ≤ s.pc.toInt) (ho : s.code[s.pc.toNat]? = some o)
    (len : s.code.length < 2 ^ 63) : 1 ≤ s.advance.pc.toInt := by
  have lt := State.pc_lt_length nonneg ho
  have inRange : s.pc.toInt + 1 < 2 ^ 63 := by omega
  rw [State.advance_eq_add_one inRange, toInt_add_one inRange]
  omega

theorem Effect.returnsPositive (e : Effect s i t) (pc : 1 ≤ s.pc.toInt) (h : s.returnsPositive) :
    t.returnsPositive := by
  unfold State.returnsPositive at *
  obtain same | ⟨-, saved, -⟩ | ⟨-, r, popped⟩ := e.cs_cases
  · rwa [same]
  · rw [saved]
    exact List.forall_mem_cons.mpr ⟨pc, h⟩
  · rw [popped] at h
    exact (List.forall_mem_cons.mp h).2

/-- An instruction of the unbounded block raises no fault of a finite capacity (60_exceptions.md R88). -/
theorem Effect.not_capacityFault (e : Effect s i t) (cfg : s.cfg = .reference) (h : ¬s.capacityFault) :
    ¬t.capacityFault := by
  obtain ⟨-, -, fault⟩ | ⟨-, -, fault⟩ | ⟨kind, -, finite, -, -, fault⟩ := e.control_cases
  · rwa [State.capacityFault_congr fault]
  · rwa [State.capacityFault_congr fault]
  · rintro ⟨kind', hk, capacity⟩
    obtain rfl : kind = kind' := by simpa [fault] using hk
    exact finite capacity cfg

end

/-! ### The statements -/

/-- Settles O51: no instruction writes these fields (`Effect.fixed`), and outside `Running` the host's turn appends to
`CODE` only. -/
theorem codeIsAppendOnly : Obligations.CodeIsAppendOnly := by
  refine ⟨fun i s t h => (exec_effect h).fixed, fun s t h => ?_⟩
  obtain ⟨hr, rfl⟩ | ⟨-, -, rfl⟩ | ⟨-, -, -, rfl⟩ | ⟨-, -, o, -, h⟩ := step_cases h
  · suffices s.hostTurn.cfg = s.cfg ∧ s.code <+: s.hostTurn.code from ⟨this.1, this.2, fun h => absurd h hr⟩
    exact State.hostTurn_cases (fun t => t.cfg = s.cfg ∧ s.code <+: t.code)
      (fun _ => ⟨rfl, List.prefix_refl _⟩) (fun _ bytes _ _ => ⟨rfl, List.prefix_append _ bytes⟩)
      (fun _ _ _ _ => ⟨rfl, List.prefix_refl _⟩) (fun _ _ => ⟨rfl, List.prefix_refl _⟩)
  · exact ⟨rfl, List.prefix_refl _, fun _ => rfl⟩
  · exact ⟨rfl, List.prefix_refl _, fun _ => rfl⟩
  · obtain ⟨code, -, cfg, -⟩ := (exec_effect h).fixed
    rw [State.advance_code] at code
    exact ⟨cfg.trans s.advance_cfg, code ▸ List.prefix_refl _, fun _ => code⟩

/-- Settles O57: CALL saves the advanced PC, which is positive (`State.one_le_advance_pc`), and nothing else adds to the
call stack. -/
theorem savedPCsArePositive : Obligations.SavedPCsArePositive := by
  refine ⟨fun s t len pos h => ?step, fun s t pos ne h => ?ret⟩
  case step =>
    obtain ⟨-, rfl⟩ | ⟨-, -, rfl⟩ | ⟨-, -, -, rfl⟩ | ⟨-, nonneg, o, ho, h⟩ := step_cases h
    · exact State.hostTurn_cases State.returnsPositive (fun _ => pos) (fun _ _ _ _ => pos) (fun _ _ _ _ => pos)
        fun _ _ => pos
    · exact pos
    · exact pos
    · refine (exec_effect h).returnsPositive (State.one_le_advance_pc nonneg ho len) ?_
      rwa [State.returnsPositive, State.advance_cs]
  case ret =>
    obtain ⟨r, rest, saved⟩ := List.exists_cons_of_ne_nil ne
    rw [exec_ret, State.cpop_cons saved] at h
    cases h
    exact pos r (by simp [saved])

/-- Settles O58: a running block leaves `Running` by the fetch's own fault, by the end of the code, or by its
instruction, which is then EXIT or faults (`Effect.control_cases`). -/
theorem executionStopsThreeWays : Obligations.ExecutionStopsThreeWays := by
  intro s t hr h stopped
  obtain ⟨idle, -⟩ | ⟨-, -, rfl⟩ | ⟨-, nonneg, len, rfl⟩ | ⟨-, nonneg, o, ho, h⟩ := step_cases h
  · exact absurd hr idle
  · exact .inr (.inr ⟨rfl, rfl, nofun, rfl, nofun⟩)
  · exact .inl ⟨rfl, nonneg, len, rfl⟩
  obtain ⟨-, status, -⟩ | ⟨exit, status, fault⟩ | ⟨kind, listed, -, status, pc, fault⟩ := (exec_effect h).control_cases
  · exact absurd (status.trans (s.advance_status.trans hr)) stopped
  · obtain rfl := eq_of_decodeByte_eq_exit exit
    exact .inr (.inl ⟨status, nonneg, ho, fault.trans s.advance_fault⟩)
  · have other : kind ≠ .codeBufferOverflow := by
      rintro rfl
      exact listed.elim (codeBufferOverflow_not_mem _) fun above => nomatch above.1
    exact .inr (.inr ⟨status, by rw [fault], by simp [fault], by rw [fault, pc], by simpa [fault] using other⟩)

/-- Settles O59: the reference's parameters leave no stack full (`Effect.not_capacityFault`) and admit every
`Append`. -/
theorem unboundedNeverOverflows : Obligations.UnboundedNeverOverflows := by
  intro s t cfg ok h
  obtain ⟨-, rfl⟩ | ⟨-, -, rfl⟩ | ⟨-, -, -, rfl⟩ | ⟨-, -, o, -, h⟩ := step_cases h
  · refine State.hostTurn_cases (¬State.capacityFault ·) (fun _ => ok) (fun _ _ _ _ => ok) (fun _ bytes _ full => ?_)
      fun _ _ => ok
    rw [cfg] at full
    cases full
  · exact mt State.capacityFault_raise.mp nofun
  · exact ok
  · refine (exec_effect h).not_capacityFault (s.advance_cfg.trans cfg) ?_
    rwa [State.capacityFault_congr s.advance_fault]

end Sys2Proof.Machine

/-! ## The canonical form of data memory, and a peek after a poke (20_memory.md)

SUPPORT. A memory in canonical form lists exactly the cells that do not read 0, so it is determined by what it reads. -/

namespace Sys2Proof.Machine

theorem Memory.read_of_no_entry {m : Memory} {a : Nat} (h : ∀ c ∈ m, c.1 ≠ a) : m.read a = 0 := by
  induction m with
  | nil => rfl
  | cons c m ih =>
    obtain ⟨hc, hm⟩ := List.forall_mem_cons.mp h
    rw [Memory.read_cons, if_neg hc, ih hm]

/-- A canonical memory lists exactly the cells that do not read 0, with what they read. -/
theorem Memory.mem_iff_read {m : Memory} (h : m.wf) (c : Nat × Word) : c ∈ m ↔ c.2 ≠ 0 ∧ m.read c.1 = c.2 := by
  obtain ⟨j, v⟩ := c
  induction m with
  | nil => exact iff_of_false List.not_mem_nil fun ⟨nonzero, read⟩ => nonzero read.symm
  | cons d m ih =>
    obtain ⟨k, w⟩ := d
    obtain ⟨below, sorted⟩ := List.pairwise_cons.mp h.1
    obtain ⟨⟨-, nonzero⟩, cells⟩ := List.forall_mem_cons.mp h.2
    rw [List.mem_cons, Memory.read_cons, ih ⟨sorted, cells⟩]
    by_cases hk : k = j
    · subst hk
      have unlisted : Memory.read m k = 0 := Memory.read_of_no_entry fun c hc => (below c hc).ne'
      simp only [unlisted, if_true, Prod.mk.injEq, true_and]
      constructor
      · rintro (rfl | ⟨listed, rfl⟩)
        · exact ⟨nonzero, rfl⟩
        · exact absurd rfl listed
      · exact fun read => .inl read.2.symm
    · simp [hk, Ne.symm hk]

/-- Equal reads make canonical memories equal: sorted lists with the same elements. -/
theorem Memory.ext_of_wf {m m' : Memory} (h : m.wf) (h' : m'.wf) (reads : ∀ k, m.read k = m'.read k) : m = m' := by
  have irrefl : Std.Irrefl fun c d : Nat × Word => c.1 < d.1 := ⟨fun c => lt_irrefl c.1⟩
  have antisymm : Std.Antisymm fun c d : Nat × Word => c.1 < d.1 := ⟨fun c d lt gt => absurd gt lt.asymm⟩
  refine h.1.eq_of_mem_iff h'.1 fun c => ?_
  rw [Memory.mem_iff_read h, Memory.mem_iff_read h', reads]

theorem toNat_toInt_of_nonneg {a : Word} (h : 0 ≤ a.toInt) : a.toInt.toNat = a.toNat := by
  rw [← toNat_of_toInt_nonneg h, Int.toNat_natCast]

/-! ### The statements -/

/-- Settles O36, by `Memory.ext_of_wf` and the law that a write keeps the form. -/
theorem memoryIsCanonical : Obligations.MemoryIsCanonical :=
  ⟨fun _ _ => Memory.ext_of_wf, fun _ _ v h ha => Memory.wf_write v h ha⟩

/-- Settles O34: POKE leaves `other` on a stack that still fits (`Effect.osFits`), and PEEK reads the memory written. -/
theorem peekAfterPoke : Obligations.PeekAfterPoke := by
  intro s addr value other rest hos addrNonneg addrLt otherNonneg otherLt fits
  have poke := exec_poke_cell hos addrNonneg addrLt
  refine ⟨_, _, poke, exec_peek_cell rfl otherNonneg otherLt ((exec_effect poke).osFits fits), ?_⟩
  rw [List.cons.injEq, toNat_toInt_of_nonneg addrNonneg, toNat_toInt_of_nonneg otherNonneg]
  refine ⟨?_, rfl⟩
  split
  case isTrue same => rw [same, Memory.read_write_same]
  case isFalse different => exact Memory.read_write_other _ _ fun h => different (BitVec.eq_of_toNat_eq h)

end Sys2Proof.Machine

/-! ## The step against the decoder, and the host's feeds (40_dispatch.md, 70_reset_and_hazards.md)

SUPPORT. The decoder's success as a first byte, the byte that `withFetchWord` places, the recorded opcode on its port,
and the two steps that start a program. -/

namespace Sys2Proof

theorem decode_eq_ok {bytes rest : List Byte} {i : Instr} (h : decode bytes = .ok (i, rest)) :
    ∃ b, bytes = b :: rest ∧ i = decodeByte b := by
  cases bytes with
  | nil => cases h
  | cons b bytes =>
    cases h
    exact ⟨b, rfl, rfl⟩

end Sys2Proof

namespace Sys2Proof.Machine

/-! ### The placed byte (log 9) -/

theorem length_take_padded (code : List Byte) (p : Nat) :
    (code.take p ++ List.replicate (p - code.length) (0 : Byte)).length = p := by
  simp only [List.length_append, List.length_take, List.length_replicate]
  omega

theorem getElem?_placeByte_same (code : List Byte) (p : Nat) (b : Byte) : (placeByte code p b)[p]? = some b := by
  rw [placeByte, List.getElem?_append_right (length_take_padded code p).le, length_take_padded, Nat.sub_self]
  rfl

theorem getElem?_placeByte_other {code : List Byte} {p k : Nat} (b : Byte) (hk : k < code.length) (other : k ≠ p) :
    (placeByte code p b)[k]? = code[k]? := by
  rcases lt_or_gt_of_ne other with before | after
  · rw [placeByte, List.getElem?_append_left (by rwa [length_take_padded]),
      List.getElem?_append_left (by simp only [List.length_take]; omega), List.getElem?_take_of_lt before]
  · obtain ⟨d, rfl⟩ := Nat.exists_eq_add_of_lt after
    rw [placeByte, List.getElem?_append_right (by rw [length_take_padded]; omega), length_take_padded, add_assoc,
      Nat.add_sub_cancel_left, List.getElem?_cons_succ, List.getElem?_drop, add_right_comm, add_assoc]

theorem State.fetchIndex_nonneg (s : State) : 0 ≤ s.fetchIndex.toInt := by
  unfold State.fetchIndex
  split
  · decide
  · omega

/-! ### The port of `FAULT` (10_state.md R21) -/

theorem FaultRecord.opcodeField_some {f : FaultRecord} {o : Byte} (h : f.opcode = some o) :
    f.opcodeField = 1#1 ++ o := by simp only [FaultRecord.opcodeField, h]

/-! ### The host's two actions that start a program -/

section
variable {s : State} {bytes : List Byte} {later : List HostAction}

/-- An `Append` that fits, taken in `HaltedEndOfCode` (10_state.md R26). -/
theorem step_append (halted : s.status = .haltedEndOfCode) (queue : s.host = .append bytes :: later)
    (room : s.cfg.codeCap.admits (s.code.length + bytes.length) = true) :
    step s = .next { s with code := s.code ++ bytes, host := later } := by
  rw [step_idle (by simp [halted]), State.hostTurn_cons queue, State.hostAct,
    State.hostAppend_room (s := { s with host := later }) halted room]

/-- A `Run` taken in `HaltedEndOfCode` (10_state.md R27). -/
theorem step_run (halted : s.status = .haltedEndOfCode) (queue : s.host = .run :: later) :
    step s = .next { s with status := .running, host := later } := by
  rw [step_idle (by simp [halted]), State.hostTurn_cons queue, State.hostAct,
    State.hostRun_halted (s := { s with host := later }) halted]

/-- An `Append` that fits and a `Run` start what they append (70_reset_and_hazards.md R101). -/
theorem runSteps_append_run (halted : s.status = .haltedEndOfCode) (queue : s.host = .append bytes :: .run :: later)
    (room : s.cfg.codeCap.admits (s.code.length + bytes.length) = true) :
    runSteps 2 s = .next { s with code := s.code ++ bytes, status := .running, host := later } :=
  (runSteps_succ 1 (step_append halted queue room)).trans
    (runSteps_succ 0 (step_run (s := { s with code := s.code ++ bytes, host := .run :: later }) halted rfl))

end

/-! ### The statements -/

/-- Settles O8: the decoder succeeds on the byte at the PC (`decode_eq_ok`), which the step fetches. -/
theorem stepExecutesDecodedInstruction : Obligations.StepExecutesDecodedInstruction := by
  intro s i rest hr nonneg inRange h
  obtain ⟨b, hb, rfl⟩ := decode_eq_ok h
  have fetched : s.code[s.pc.toNat]? = some b := by rw [← List.head?_drop, hb, List.head?_cons]
  exact ⟨decodeByte_wf b, by rw [step_opcode hr nonneg fetched, State.advance_eq inRange]⟩

/-- Settles O9: the advance from 2^63 - 1 leaves int64 (`State.advance_beyond`). -/
theorem advanceBeyondInt64IsFree : Obligations.AdvanceBeyondInt64IsFree := by
  intro s o hr hpc ho
  rw [step_opcode hr (by omega) ho, State.advance_beyond (by omega)]

/-- Settles O10, one law of the host's turn for each clause. -/
theorem idleStepIsHostAction : Obligations.IdleStepIsHostAction := by
  intro s idle
  rw [step_idle idle]
  exact ⟨fun h => by rw [State.hostTurn_nil h], fun _ _ h => by rw [State.hostTurn_cons h, State.hostAct],
    fun _ h => by rw [State.hostTurn_cons h, State.hostAct]⟩

/-- Settles O12: the byte stands where the fetch reads (`getElem?_placeByte_same`), and every other position of the code
keeps its own. -/
theorem fetchWordRunsNext : Obligations.FetchWordRunsNext := by
  intro s w u
  refine ⟨?runs, fun k b hk other => ?keeps⟩
  case runs =>
    have word : BitVec.ofNat 8 (w % 2 ^ 8) = BitVec.ofNat 8 w := BitVec.eq_of_toNat_eq (by simp)
    have placed : u.code[u.pc.toNat]? = some (BitVec.ofNat 8 w) := word ▸ getElem?_placeByte_same _ _ _
    exact step_opcode rfl s.fetchIndex_nonneg placed
  case keeps =>
    exact (getElem?_placeByte_other _ (List.getElem?_eq_some_iff.mp hk).1 other).trans hk

/-- Settles O17: the two tables by evaluation, each field of the port by what the record holds. -/
theorem portCodes : Obligations.PortCodes := by
  refine ⟨rfl, rfl, fun f o h => ?opcode, fun f h => ?noOpcode, fun f h => ?noKind, fun f k h => ?kind,
    fun f => ?valid⟩
  case opcode =>
    rw [FaultRecord.opcodeField_some h]
    exact ⟨by rw [BitVec.getLsbD_append]; rfl, BitVec.setWidth_append_eq_right⟩
  case noOpcode => simp only [FaultRecord.opcodeField, h]
  case noKind => simp only [FaultRecord.kindCode, h]
  case kind => simp only [FaultRecord.kindCode, h]
  case valid => cases h : f.valid <;> simp [FaultRecord.validBit, h]

/-- Settles O18: each feed begins with an `Append` and a `Run` (`runSteps_append_run`). -/
theorem hostFeedsStartPrograms : Obligations.HostFeedsStartPrograms := by
  refine ⟨fun cfg file room => ?batch, fun s terminated line lines halted queue room => ?interactive⟩
  case batch =>
    exact runSteps_append_run (s := { State.resetWith cfg with host := batchFeed file }) rfl rfl
      (by simpa [State.resetWith] using room)
  case interactive =>
    rw [runSteps_append_run halted queue (by cases terminated <;> simpa [feedLine, add_assoc] using room)]
    cases terminated <;> simp [feedLine]

/-- Settles O19: the fault entry writes the two fields of its definition, and the exit code follows the status. -/
theorem faultEntry : Obligations.FaultEntry := fun _ _ _ => ⟨rfl, rfl⟩

end Sys2Proof.Machine
